-- ==== Sys2Proof/Word.lean ====
section
/-!
DEFINITION. The machine's words and their plainest names: bytes, 16-bit words, 12-bit address fields, register numbers.
-/

namespace Sys2Proof

/-- An 8-bit value: a general register, a timer, a memory cell (10_state.md R22, R29, R33). -/
abbrev Byte := BitVec 8

/-- A 16-bit value: `I`, `pc`, a stack entry, an instruction word (10_state.md R25, R26, R27; 30_encoding.md R80). -/
abbrev Word := BitVec 16

/-- The 12-bit address field `NNN` of an instruction word (30_encoding.md R81). -/
abbrev AddrField := BitVec 12

/-- A register number 0..15, what a 4-bit field `X` or `Y` selects (30_encoding.md R84); also a key number (10_state.md R31). -/
abbrev Reg := Fin 16

/-- `VF`, the register that certain instructions overwrite with a flag (10_state.md R23). -/
def regF : Reg := 15

end Sys2Proof
end

