-- ==== Sys2Proof/Syntax.lean ====
section
/-!
DEFINITION. The instructions: one constructor for each of the 35 rows of spec/opcode_table.json, in the table's order
(30_encoding.md R85). A constructor holds the operand fields of its format (R82) and nothing of the encoding.
-/

namespace Sys2Proof

/-- An instruction. `x` and `y` are the register fields `X` and `Y`, `nn` the byte immediate `NN`, `nnn` the address `NNN`,
`n` the row count `N` (30_encoding.md R81-R84). -/
inductive Instr where
  /-- `0000` NOP (41_flow.md R120). -/
  | nop
  /-- `00E0` CLS (42_display.md R141). -/
  | cls
  /-- `00EE` RET (41_flow.md R121). -/
  | ret
  /-- `1NNN` JP addr (41_flow.md R122). -/
  | jpAddr (nnn : AddrField)
  /-- `2NNN` CALL addr (41_flow.md R123). -/
  | callAddr (nnn : AddrField)
  /-- `3XNN` SE Vx, byte (41_flow.md R124). -/
  | seByte (x : Reg) (nn : Byte)
  /-- `4XNN` SNE Vx, byte (41_flow.md R125). -/
  | sneByte (x : Reg) (nn : Byte)
  /-- `5XY0` SE Vx, Vy (41_flow.md R126). -/
  | seReg (x y : Reg)
  /-- `9XY0` SNE Vx, Vy (41_flow.md R127). -/
  | sneReg (x y : Reg)
  /-- `6XNN` LD Vx, byte (43_alu.md R152). -/
  | ldByte (x : Reg) (nn : Byte)
  /-- `7XNN` ADD Vx, byte (43_alu.md R153). -/
  | addByte (x : Reg) (nn : Byte)
  /-- `8XY0` LD Vx, Vy (43_alu.md R154). -/
  | ldReg (x y : Reg)
  /-- `8XY1` OR Vx, Vy (43_alu.md R155). -/
  | orReg (x y : Reg)
  /-- `8XY2` AND Vx, Vy (43_alu.md R156). -/
  | andReg (x y : Reg)
  /-- `8XY3` XOR Vx, Vy (43_alu.md R157). -/
  | xorReg (x y : Reg)
  /-- `8XY4` ADD Vx, Vy (43_alu.md R158). -/
  | addReg (x y : Reg)
  /-- `8XY5` SUB Vx, Vy (43_alu.md R159). -/
  | subReg (x y : Reg)
  /-- `8XY6` SHR Vx, Vy (43_alu.md R160). -/
  | shrReg (x y : Reg)
  /-- `8XY7` SUBN Vx, Vy (43_alu.md R161). -/
  | subnReg (x y : Reg)
  /-- `8XYE` SHL Vx, Vy (43_alu.md R162). -/
  | shlReg (x y : Reg)
  /-- `ANNN` LD I, addr (44_index_memory.md R170). -/
  | ldIAddr (nnn : AddrField)
  /-- `BNNN` JP V0, addr (41_flow.md R128). -/
  | jpV0Addr (nnn : AddrField)
  /-- `CXNN` RND Vx, byte (43_alu.md R163). -/
  | rndByte (x : Reg) (nn : Byte)
  /-- `DXYN` DRW Vx, Vy, nibble (42_display.md R142). -/
  | drw (x y : Reg) (n : Nat)
  /-- `EX9E` SKP Vx (45_keys_timers.md R180). -/
  | skp (x : Reg)
  /-- `EXA1` SKNP Vx (45_keys_timers.md R181). -/
  | sknp (x : Reg)
  /-- `FX07` LD Vx, DT (45_keys_timers.md R182). -/
  | ldVxDt (x : Reg)
  /-- `FX15` LD DT, Vx (45_keys_timers.md R184). -/
  | ldDtVx (x : Reg)
  /-- `FX18` LD ST, Vx (45_keys_timers.md R185). -/
  | ldStVx (x : Reg)
  /-- `FX1E` ADD I, Vx (44_index_memory.md R171). -/
  | addIVx (x : Reg)
  /-- `FX29` LD F, Vx (44_index_memory.md R172). -/
  | ldFVx (x : Reg)
  /-- `FX33` LD B, Vx (44_index_memory.md R173). -/
  | ldBVx (x : Reg)
  /-- `FX55` LD [I], Vx (44_index_memory.md R174). -/
  | ldMemVx (x : Reg)
  /-- `FX65` LD Vx, [I] (44_index_memory.md R175). -/
  | ldVxMem (x : Reg)
  /-- `FX0A` LD Vx, K (45_keys_timers.md R183). -/
  | ldVxK (x : Reg)
deriving DecidableEq, Repr

end Sys2Proof
end

