-- ==== Sys2Proof/WellFormed.lean ====
section
/-!
DEFINITION. Which instruction terms are instructions of the hardware. Register numbers, bytes and addresses are bounded by
their types (30_encoding.md R83, R84: every value of those fields is legal); the one operand held as a plain count is the
row count of `DXYN`, a 4-bit count 0..15 (R83).
-/

namespace Sys2Proof

/-- The check of an instruction's operands: `DXYN` draws 0..15 rows (30_encoding.md R83); no other form has a check. -/
def Instr.wellFormed : Instr → Bool
  | .nop => true
  | .cls => true
  | .ret => true
  | .jpAddr _ => true
  | .callAddr _ => true
  | .seByte _ _ => true
  | .sneByte _ _ => true
  | .seReg _ _ => true
  | .sneReg _ _ => true
  | .ldByte _ _ => true
  | .addByte _ _ => true
  | .ldReg _ _ => true
  | .orReg _ _ => true
  | .andReg _ _ => true
  | .xorReg _ _ => true
  | .addReg _ _ => true
  | .subReg _ _ => true
  | .shrReg _ _ => true
  | .subnReg _ _ => true
  | .shlReg _ _ => true
  | .ldIAddr _ => true
  | .jpV0Addr _ => true
  | .rndByte _ _ => true
  | .drw _ _ n => decide (n < 16)
  | .skp _ => true
  | .sknp _ => true
  | .ldVxDt _ => true
  | .ldDtVx _ => true
  | .ldStVx _ => true
  | .addIVx _ => true
  | .ldFVx _ => true
  | .ldBVx _ => true
  | .ldMemVx _ => true
  | .ldVxMem _ => true
  | .ldVxK _ => true

end Sys2Proof
end

