-- ==== Sys2Proof/Decode.lean ====
section
/-!
DEFINITION. The decoder of instruction words, the encoder, and the match/mask table of 30_encoding.md R85.
The decoder splits a word into the fields of R81 and selects by the nibbles; the table of R85 stands beside it as data.
-/

namespace Sys2Proof

/-! ## The fields of a word (30_encoding.md R81) -/

/-- `n1 = w[15:12]`, the family selector. -/
def fieldN1 (w : Word) : BitVec 4 := w.extractLsb' 12 4

/-- `X = w[11:8]`, a register number. -/
def fieldX (w : Word) : Reg := (w.extractLsb' 8 4).toFin

/-- `Y = w[7:4]`, a register number. -/
def fieldY (w : Word) : Reg := (w.extractLsb' 4 4).toFin

/-- `N = w[3:0]`, a row count or a function selector. -/
def fieldN (w : Word) : BitVec 4 := w.extractLsb' 0 4

/-- `NN = w[7:0]`, a byte immediate or a function selector. -/
def fieldNN (w : Word) : Byte := w.extractLsb' 0 8

/-- `NNN = w[11:0]`, an address. -/
def fieldNNN (w : Word) : AddrField := w.extractLsb' 0 12

/-! ## Decoding (30_encoding.md R85, R86, R87) -/

/-- Family 0 is selected by the whole word: three fixed words, every other `0NNN` is illegal (R87). -/
def decodeFamily0 (w : Word) : Option Instr :=
  if w = 0x0000#16 then some .nop
  else if w = 0x00E0#16 then some .cls
  else if w = 0x00EE#16 then some .ret
  else none

/-- Family 8 is selected by the low nibble (format XYF). -/
def decodeFamily8 (x y : Reg) (n : BitVec 4) : Option Instr :=
  match n.toNat with
  | 0x0 => some (.ldReg x y)
  | 0x1 => some (.orReg x y)
  | 0x2 => some (.andReg x y)
  | 0x3 => some (.xorReg x y)
  | 0x4 => some (.addReg x y)
  | 0x5 => some (.subReg x y)
  | 0x6 => some (.shrReg x y)
  | 0x7 => some (.subnReg x y)
  | 0xE => some (.shlReg x y)
  | _ => none

/-- Family E is selected by the low byte (format XFF). -/
def decodeFamilyE (x : Reg) (nn : Byte) : Option Instr :=
  if nn = 0x9E#8 then some (.skp x)
  else if nn = 0xA1#8 then some (.sknp x)
  else none

/-- Family F is selected by the low byte (format XFF). -/
def decodeFamilyF (x : Reg) (nn : Byte) : Option Instr :=
  if nn = 0x07#8 then some (.ldVxDt x)
  else if nn = 0x0A#8 then some (.ldVxK x)
  else if nn = 0x15#8 then some (.ldDtVx x)
  else if nn = 0x18#8 then some (.ldStVx x)
  else if nn = 0x1E#8 then some (.addIVx x)
  else if nn = 0x29#8 then some (.ldFVx x)
  else if nn = 0x33#8 then some (.ldBVx x)
  else if nn = 0x55#8 then some (.ldMemVx x)
  else if nn = 0x65#8 then some (.ldVxMem x)
  else none

/-- The instruction of a word, or none for a word that matches no row (30_encoding.md R86). -/
def decodeWord (w : Word) : Option Instr :=
  match (fieldN1 w).toNat with
  | 0x0 => decodeFamily0 w
  | 0x1 => some (.jpAddr (fieldNNN w))
  | 0x2 => some (.callAddr (fieldNNN w))
  | 0x3 => some (.seByte (fieldX w) (fieldNN w))
  | 0x4 => some (.sneByte (fieldX w) (fieldNN w))
  | 0x5 => if fieldN w = 0x0#4 then some (.seReg (fieldX w) (fieldY w)) else none
  | 0x6 => some (.ldByte (fieldX w) (fieldNN w))
  | 0x7 => some (.addByte (fieldX w) (fieldNN w))
  | 0x8 => decodeFamily8 (fieldX w) (fieldY w) (fieldN w)
  | 0x9 => if fieldN w = 0x0#4 then some (.sneReg (fieldX w) (fieldY w)) else none
  | 0xA => some (.ldIAddr (fieldNNN w))
  | 0xB => some (.jpV0Addr (fieldNNN w))
  | 0xC => some (.rndByte (fieldX w) (fieldNN w))
  | 0xD => some (.drw (fieldX w) (fieldY w) (fieldN w).toNat)
  | 0xE => decodeFamilyE (fieldX w) (fieldNN w)
  | _ => decodeFamilyF (fieldX w) (fieldNN w)

/-- Why a byte sequence is no instruction. -/
inductive DecodeError where
  /-- The word matches no row of 30_encoding.md R85; a step that fetches it raises `UnimplementedOpcode` (R86). -/
  | unimplementedOpcode (w : Word)
  /-- Fewer than the two bytes of an instruction (30_encoding.md R80). A fetch always has two. -/
  | truncated
deriving DecidableEq, Repr

/-- Decode the instruction at the head of a byte sequence, first byte in bits 15..8 (20_memory.md R54; 30_encoding.md R80),
and give the bytes after it. -/
def decode : List Byte → Except DecodeError (Instr × List Byte)
  | hi :: lo :: rest =>
    match decodeWord (hi ++ lo) with
    | some i => .ok (i, rest)
    | none => .error (.unimplementedOpcode (hi ++ lo))
  | _ => .error .truncated

/-! ## Encoding (30_encoding.md R82, R85) -/

/-- Format NNN: `oooo aaaa aaaa aaaa`. -/
def encodeNNN (op : BitVec 4) (nnn : AddrField) : Word := op ++ nnn

/-- Format XNN: `oooo xxxx kkkk kkkk`. -/
def encodeXNN (op : BitVec 4) (x : Reg) (nn : Byte) : Word := op ++ (BitVec.ofFin x : BitVec 4) ++ nn

/-- Formats XYF and XYN: `oooo xxxx yyyy ffff`, the low nibble fixed or the row count. -/
def encodeXYN (op : BitVec 4) (x y : Reg) (n : BitVec 4) : Word :=
  op ++ (BitVec.ofFin x : BitVec 4) ++ (BitVec.ofFin y : BitVec 4) ++ n

/-- The word of an instruction (30_encoding.md R82, R85). -/
def encode : Instr → Word
  | .nop => 0x0000#16
  | .cls => 0x00E0#16
  | .ret => 0x00EE#16
  | .jpAddr nnn => encodeNNN 0x1#4 nnn
  | .callAddr nnn => encodeNNN 0x2#4 nnn
  | .seByte x nn => encodeXNN 0x3#4 x nn
  | .sneByte x nn => encodeXNN 0x4#4 x nn
  | .seReg x y => encodeXYN 0x5#4 x y 0x0#4
  | .sneReg x y => encodeXYN 0x9#4 x y 0x0#4
  | .ldByte x nn => encodeXNN 0x6#4 x nn
  | .addByte x nn => encodeXNN 0x7#4 x nn
  | .ldReg x y => encodeXYN 0x8#4 x y 0x0#4
  | .orReg x y => encodeXYN 0x8#4 x y 0x1#4
  | .andReg x y => encodeXYN 0x8#4 x y 0x2#4
  | .xorReg x y => encodeXYN 0x8#4 x y 0x3#4
  | .addReg x y => encodeXYN 0x8#4 x y 0x4#4
  | .subReg x y => encodeXYN 0x8#4 x y 0x5#4
  | .shrReg x y => encodeXYN 0x8#4 x y 0x6#4
  | .subnReg x y => encodeXYN 0x8#4 x y 0x7#4
  | .shlReg x y => encodeXYN 0x8#4 x y 0xE#4
  | .ldIAddr nnn => encodeNNN 0xA#4 nnn
  | .jpV0Addr nnn => encodeNNN 0xB#4 nnn
  | .rndByte x nn => encodeXNN 0xC#4 x nn
  | .drw x y n => encodeXYN 0xD#4 x y (BitVec.ofNat 4 n)
  | .skp x => encodeXNN 0xE#4 x 0x9E#8
  | .sknp x => encodeXNN 0xE#4 x 0xA1#8
  | .ldVxDt x => encodeXNN 0xF#4 x 0x07#8
  | .ldDtVx x => encodeXNN 0xF#4 x 0x15#8
  | .ldStVx x => encodeXNN 0xF#4 x 0x18#8
  | .addIVx x => encodeXNN 0xF#4 x 0x1E#8
  | .ldFVx x => encodeXNN 0xF#4 x 0x29#8
  | .ldBVx x => encodeXNN 0xF#4 x 0x33#8
  | .ldMemVx x => encodeXNN 0xF#4 x 0x55#8
  | .ldVxMem x => encodeXNN 0xF#4 x 0x65#8
  | .ldVxK x => encodeXNN 0xF#4 x 0x0A#8

/-- The two bytes of an instruction as memory holds them, high byte first (30_encoding.md R80). -/
def encodeBytes (i : Instr) : List Byte := [(encode i).extractLsb' 8 8, (encode i).extractLsb' 0 8]

/-! ## The match/mask table (30_encoding.md R85) -/

/-- A row of the opcode map: a word selects it when `w &&& mask = pattern`. -/
structure OpcodeRow where
  /-- The fixed bits of the word. -/
  pattern : Word
  /-- Which bits are fixed. -/
  mask : Word
deriving DecidableEq, Repr

/-- A word selects a row (30_encoding.md R85). -/
def OpcodeRow.selects (r : OpcodeRow) (w : Word) : Bool := w &&& r.mask == r.pattern

/-- The row of 30_encoding.md R85 that an instruction belongs to. -/
def Instr.row : Instr → OpcodeRow
  | .nop => ⟨0x0000#16, 0xFFFF#16⟩
  | .cls => ⟨0x00E0#16, 0xFFFF#16⟩
  | .ret => ⟨0x00EE#16, 0xFFFF#16⟩
  | .jpAddr _ => ⟨0x1000#16, 0xF000#16⟩
  | .callAddr _ => ⟨0x2000#16, 0xF000#16⟩
  | .seByte _ _ => ⟨0x3000#16, 0xF000#16⟩
  | .sneByte _ _ => ⟨0x4000#16, 0xF000#16⟩
  | .seReg _ _ => ⟨0x5000#16, 0xF00F#16⟩
  | .sneReg _ _ => ⟨0x9000#16, 0xF00F#16⟩
  | .ldByte _ _ => ⟨0x6000#16, 0xF000#16⟩
  | .addByte _ _ => ⟨0x7000#16, 0xF000#16⟩
  | .ldReg _ _ => ⟨0x8000#16, 0xF00F#16⟩
  | .orReg _ _ => ⟨0x8001#16, 0xF00F#16⟩
  | .andReg _ _ => ⟨0x8002#16, 0xF00F#16⟩
  | .xorReg _ _ => ⟨0x8003#16, 0xF00F#16⟩
  | .addReg _ _ => ⟨0x8004#16, 0xF00F#16⟩
  | .subReg _ _ => ⟨0x8005#16, 0xF00F#16⟩
  | .shrReg _ _ => ⟨0x8006#16, 0xF00F#16⟩
  | .subnReg _ _ => ⟨0x8007#16, 0xF00F#16⟩
  | .shlReg _ _ => ⟨0x800E#16, 0xF00F#16⟩
  | .ldIAddr _ => ⟨0xA000#16, 0xF000#16⟩
  | .jpV0Addr _ => ⟨0xB000#16, 0xF000#16⟩
  | .rndByte _ _ => ⟨0xC000#16, 0xF000#16⟩
  | .drw _ _ _ => ⟨0xD000#16, 0xF000#16⟩
  | .skp _ => ⟨0xE09E#16, 0xF0FF#16⟩
  | .sknp _ => ⟨0xE0A1#16, 0xF0FF#16⟩
  | .ldVxDt _ => ⟨0xF007#16, 0xF0FF#16⟩
  | .ldDtVx _ => ⟨0xF015#16, 0xF0FF#16⟩
  | .ldStVx _ => ⟨0xF018#16, 0xF0FF#16⟩
  | .addIVx _ => ⟨0xF01E#16, 0xF0FF#16⟩
  | .ldFVx _ => ⟨0xF029#16, 0xF0FF#16⟩
  | .ldBVx _ => ⟨0xF033#16, 0xF0FF#16⟩
  | .ldMemVx _ => ⟨0xF055#16, 0xF0FF#16⟩
  | .ldVxMem _ => ⟨0xF065#16, 0xF0FF#16⟩
  | .ldVxK _ => ⟨0xF00A#16, 0xF0FF#16⟩

/-- The rows of families 0 to 7 and 9, in the order of 30_encoding.md R85. -/
def opcodeRowsFlow : List OpcodeRow :=
  [ ⟨0x0000#16, 0xFFFF#16⟩, ⟨0x00E0#16, 0xFFFF#16⟩, ⟨0x00EE#16, 0xFFFF#16⟩,
    ⟨0x1000#16, 0xF000#16⟩, ⟨0x2000#16, 0xF000#16⟩, ⟨0x3000#16, 0xF000#16⟩,
    ⟨0x4000#16, 0xF000#16⟩, ⟨0x5000#16, 0xF00F#16⟩, ⟨0x9000#16, 0xF00F#16⟩,
    ⟨0x6000#16, 0xF000#16⟩, ⟨0x7000#16, 0xF000#16⟩ ]

/-- The rows of family 8, in the order of 30_encoding.md R85. -/
def opcodeRowsAlu : List OpcodeRow :=
  [ ⟨0x8000#16, 0xF00F#16⟩, ⟨0x8001#16, 0xF00F#16⟩, ⟨0x8002#16, 0xF00F#16⟩,
    ⟨0x8003#16, 0xF00F#16⟩, ⟨0x8004#16, 0xF00F#16⟩, ⟨0x8005#16, 0xF00F#16⟩,
    ⟨0x8006#16, 0xF00F#16⟩, ⟨0x8007#16, 0xF00F#16⟩, ⟨0x800E#16, 0xF00F#16⟩ ]

/-- The rows of families A to F, in the order of 30_encoding.md R85. -/
def opcodeRowsIndex : List OpcodeRow :=
  [ ⟨0xA000#16, 0xF000#16⟩, ⟨0xB000#16, 0xF000#16⟩, ⟨0xC000#16, 0xF000#16⟩,
    ⟨0xD000#16, 0xF000#16⟩, ⟨0xE09E#16, 0xF0FF#16⟩, ⟨0xE0A1#16, 0xF0FF#16⟩,
    ⟨0xF007#16, 0xF0FF#16⟩, ⟨0xF015#16, 0xF0FF#16⟩, ⟨0xF018#16, 0xF0FF#16⟩,
    ⟨0xF01E#16, 0xF0FF#16⟩, ⟨0xF029#16, 0xF0FF#16⟩, ⟨0xF033#16, 0xF0FF#16⟩,
    ⟨0xF055#16, 0xF0FF#16⟩, ⟨0xF065#16, 0xF0FF#16⟩, ⟨0xF00A#16, 0xF0FF#16⟩ ]

/-- The 35 rows of the opcode map (30_encoding.md R85). -/
def opcodeRows : List OpcodeRow := opcodeRowsFlow ++ opcodeRowsAlu ++ opcodeRowsIndex

/-! ## The table's numbering of an instruction's bits -/

/-- The instruction word that `nbits` bits `w` of spec/opcode_table.json stand for: bit 0 is bit 0 of the word, every bit at
`nbits` and above is 0, and an instruction has 16 bits (30_encoding.md R80). -/
def tableWord (nbits w : Nat) : Word := BitVec.ofNat 16 (w % 2 ^ nbits)

/-- What the decoder reads from the instruction whose bits, numbered as the table numbers them, are `w`: its bytes are
laid out as memory holds them and given to `decode`. -/
def decodeTableWord (nbits w : Nat) : Option Instr :=
  match decode [(tableWord nbits w).extractLsb' 8 8, (tableWord nbits w).extractLsb' 0 8] with
  | .ok (i, _) => some i
  | .error _ => none

end Sys2Proof
end

