-- ==== Sys2Proof/Config.lean ====
section
/-!
DEFINITION. The parameters of 00_scope.md R6, which an implementation fixes, and the one free value of the model: the
bytes of the random-byte port.
-/

namespace Sys2Proof

/-- `SHIFT_QUIRK` (00_scope.md R6): which register `8XY6` and `8XYE` shift. -/
inductive ShiftQuirk where
  | vx
  | vy
deriving DecidableEq, Repr

/-- `JUMP_QUIRK` (00_scope.md R6): which register `BNNN` adds. -/
inductive JumpQuirk where
  | v0
  | vx
deriving DecidableEq, Repr

/-- `BLOCK_QUIRK` (00_scope.md R6): the semantics of `FX55` and `FX65`; `observedSource` is refused (44_index_memory.md R177). -/
inductive BlockQuirk where
  | conventional
  | observedSource
deriving DecidableEq, Repr

/-- `VF_ORDER` (00_scope.md R6): which of the two writes of a flag-writing ALU instruction survives when `X = 0xF`. -/
inductive VfOrder where
  | flagLast
  | resultLast
deriving DecidableEq, Repr

/-- The named parameters of 00_scope.md R6. They are no state of the core (10_state.md R38); State carries them in a field
of the model's own, which no operation writes (log entry 2). -/
structure Params where
  /-- `SHIFT_QUIRK`. -/
  shiftQuirk : ShiftQuirk
  /-- `JUMP_QUIRK`. -/
  jumpQuirk : JumpQuirk
  /-- `BLOCK_QUIRK`. -/
  blockQuirk : BlockQuirk
  /-- `VF_ORDER`. -/
  vfOrder : VfOrder
  /-- `PROTECT_LOW_MEMORY`. -/
  protectLowMemory : Bool
  /-- `FONT`: the 80 glyph bytes at 0x000-0x04F (10_state.md R40). -/
  font : Vector Byte 80
deriving DecidableEq, Repr

/-- The `n`-th byte that the random-byte port supplies (60_exceptions.md R205; 43_alu.md R163): a free value. It has no
body, so nothing can be proved of which byte it is, and a claim holds for every generator. DESIGN CHOICE (log entry 3),
safe. -/
opaque Config.randomByte : Nat → Byte

end Sys2Proof
end

