-- ==== Sys2Proof/Machine/Defaults.lean ====
section
/-!
DEFINITION. The default values of the parameters of 00_scope.md R6: the conventional font of 10_state.md R40 and the
defaults of the five choices.
-/

namespace Sys2Proof

/-- Glyphs `0` to `7` of the default `FONT` (10_state.md R40). -/
def defaultGlyphs0to7 : List Byte :=
  [0xF0, 0x90, 0x90, 0x90, 0xF0] ++
  [0x20, 0x60, 0x20, 0x20, 0x70] ++
  [0xF0, 0x10, 0xF0, 0x80, 0xF0] ++
  [0xF0, 0x10, 0xF0, 0x10, 0xF0] ++
  [0x90, 0x90, 0xF0, 0x10, 0x10] ++
  [0xF0, 0x80, 0xF0, 0x10, 0xF0] ++
  [0xF0, 0x80, 0xF0, 0x90, 0xF0] ++
  [0xF0, 0x10, 0x20, 0x40, 0x40]

/-- Glyphs `8` to `F` of the default `FONT` (10_state.md R40). -/
def defaultGlyphs8toF : List Byte :=
  [0xF0, 0x90, 0xF0, 0x90, 0xF0] ++
  [0xF0, 0x90, 0xF0, 0x10, 0xF0] ++
  [0xF0, 0x90, 0xF0, 0x90, 0x90] ++
  [0xE0, 0x90, 0xE0, 0x90, 0xE0] ++
  [0xF0, 0x80, 0x80, 0x80, 0xF0] ++
  [0xE0, 0x90, 0x90, 0x90, 0xE0] ++
  [0xF0, 0x80, 0xF0, 0x80, 0xF0] ++
  [0xF0, 0x80, 0xF0, 0x80, 0x80]

/-- The default `FONT` (10_state.md R40), the conventional CHIP-8 font, which the spec supplies from general knowledge
(93_implementation_defined.md G1). PRESUMED (log entry 4), unsafe for claims about glyph bytes. -/
def defaultFont : Vector Byte 80 := ⟨(defaultGlyphs0to7 ++ defaultGlyphs8toF).toArray, rfl⟩

/-- The defaults of 00_scope.md R6. -/
def defaultParams : Params where
  shiftQuirk := .vx
  jumpQuirk := .v0
  blockQuirk := .conventional
  vfOrder := .flagLast
  protectLowMemory := false
  font := defaultFont

end Sys2Proof
end

