-- ==== Sys2Proof/Machine/State.lean ====
section
/-!
DEFINITION. The state of the core (10_state.md R21) as plain data, the reasons a run of the model can stop, and the state
after reset (R41).
-/

namespace Sys2Proof.Machine

/-- The kinds of fault of 60_exceptions.md R190, with their payloads. A fault of the core is a state it enters, not an end
of the model's run. -/
inductive FaultKind where
  /-- `2NNN` with a full stack (41_flow.md R123). -/
  | stackOverflow
  /-- `00EE` with an empty stack (41_flow.md R121). -/
  | stackUnderflow
  /-- The fetched word matches no row (40_pipeline.md R106). -/
  | unimplementedOpcode (w : Word)
  /-- A fetch with `pc` odd, below 0x200 or above 0xFFE (40_pipeline.md R103). -/
  | pcOutOfRange (pc : Word)
  /-- A data access beyond 0xFFF; the lowest such address of the access (20_memory.md R58). -/
  | memoryOutOfRange (a : Nat)
  /-- A data write below 0x200 under `PROTECT_LOW_MEMORY = true`; the lowest such address (20_memory.md R59). -/
  | protectedWrite (a : Nat)
  /-- `EX9E` or `EXA1` with a register above 15 (45_keys_timers.md R180, R181). -/
  | keyIndexOutOfRange (k : Byte)
deriving DecidableEq, Repr

/-- A fault record `(kind, at)` (10_state.md R35). -/
structure FaultRecord where
  /-- The kind of the fault with its payload. -/
  kind : FaultKind
  /-- The record's `at`: the value of `pc` when the faulting step began. -/
  atPc : Word
deriving DecidableEq, Repr

/-- The run mode (10_state.md R34). -/
inductive RunMode where
  /-- A step fetches, decodes and executes one instruction. -/
  | running
  /-- A step polls the keypad; the key found goes to register `x`. -/
  | waitingForKey (x : Reg)
  /-- A step changes nothing. -/
  | faulted (r : FaultRecord)
deriving DecidableEq, Repr

/-- Memory: the cells that differ from what they hold after reset, addresses rising (`Memory.wf`). -/
abbrev Memory := List Host.Cell

/-- The framebuffer, `fb[y][x]`: 32 rows of 64 cells (10_state.md R32). -/
abbrev FrameBuffer := Vector (Vector Bool 64) 32

/-- The whole state of the core (10_state.md R21), and two fields of the model's own, `params` and `draws`. -/
structure State where
  /-- `V[0]`..`V[15]` (10_state.md R22). -/
  v : Vector Byte 16
  /-- `I` (10_state.md R26). -/
  i : Word
  /-- `pc` (10_state.md R25). -/
  pc : Word
  /-- `sp`, 0..16, the number of stack entries in use (10_state.md R28). -/
  sp : Fin 17
  /-- The call stack (10_state.md R27). -/
  stack : Vector Word 16
  /-- `DT` (10_state.md R29). -/
  dt : Byte
  /-- `ST` (10_state.md R30). -/
  st : Byte
  /-- The keypad, true = pressed (10_state.md R31). -/
  keypad : Vector Bool 16
  /-- The framebuffer (10_state.md R32). -/
  fb : FrameBuffer
  /-- The memory (10_state.md R33), read through `State.readByte`. -/
  mem : Memory
  /-- The run mode (10_state.md R34). -/
  mode : RunMode
  /-- The model's own: the parameters of 00_scope.md R6, which no operation writes (log entry 2). -/
  params : Params
  /-- The model's own: how many random bytes have been consumed (log entry 3). -/
  draws : Nat
deriving DecidableEq, Repr

/-- The reasons a step of the model ends in a host fault: there are none. Every fault of the spec is a state of the core
(60_exceptions.md R192), so a step that raises one answers a next state. Nothing raises a `Fault`; that is safe. -/
inductive Fault where
deriving DecidableEq, Repr

/-- The reasons the model gives a step no meaning. -/
inductive Refusal where
  /-- Raised by an arm of `exec` for an instruction that has no meaning yet; no arm raises it now. Safe. -/
  | notModelled (mnemonic : String)
  /-- Raised by `FX55` and `FX65` under `BLOCK_QUIRK = ObservedSource`, whose semantics the spec refuses to give
  (44_index_memory.md R177; 60_exceptions.md R209). Safe. -/
  | observedBlockTransfer
deriving DecidableEq, Repr

/-- What a step or a meaning answers. -/
abbrev Answer := Host.Outcome State Fault Refusal

/-- The reset state of 10_state.md R41 on a core with the given parameters: memory lists nothing, so that every address
holds its reset contents. `draws = 0` is the model's choice (log entry 3). -/
def State.resetWith (p : Params) : State where
  v := Vector.replicate 16 0
  i := 0
  pc := 0x200
  sp := 0
  stack := Vector.replicate 16 0
  dt := 0
  st := 0
  keypad := Vector.replicate 16 false
  fb := Vector.replicate 32 (Vector.replicate 64 false)
  mem := []
  mode := .running
  params := p
  draws := 0

/-- The core right after reset (10_state.md R41), with the default parameters of 00_scope.md R6. -/
def State.reset : State := State.resetWith defaultParams

end Sys2Proof.Machine
end

