-- ==== Sys2Proof/Machine/Ops.lean ====
section
/-!
DEFINITION. The named operations over the state: registers, memory, stack, keypad and framebuffer accessors, the range
checks of 00_scope.md R15, raising a fault (R16; 60_exceptions.md R192), the skip, the fetch and the key poll.
-/

namespace Sys2Proof.Machine

/-! ## Registers and control state -/

/-- `V[x]` (10_state.md R22). -/
def State.reg (s : State) (x : Reg) : Byte := s.v.get x

/-- `V[x] <- b` (10_state.md R22: no register is hardwired). -/
def State.setReg (s : State) (x : Reg) (b : Byte) : State := { s with v := s.v.set x.val b x.isLt }

/-- `V[r] <- f r` for every register. -/
def State.setRegs (s : State) (f : Reg → Byte) : State := { s with v := Vector.ofFn f }

/-- `I <- a` (10_state.md R26). -/
def State.setI (s : State) (a : Word) : State := { s with i := a }

/-- `pc <- a` (10_state.md R25). -/
def State.setPc (s : State) (a : Word) : State := { s with pc := a }

/-- `DT <- b` (10_state.md R29). -/
def State.setDt (s : State) (b : Byte) : State := { s with dt := b }

/-- `ST <- b` (10_state.md R30). -/
def State.setSt (s : State) (b : Byte) : State := { s with st := b }

/-- `mode <- m` (10_state.md R34). -/
def State.setMode (s : State) (m : RunMode) : State := { s with mode := m }

/-- One more random byte has been consumed (60_exceptions.md R205). -/
def State.countDraw (s : State) : State := { s with draws := s.draws + 1 }

/-! ## Call stack (10_state.md R27, R28) -/

/-- `stack[j]`. -/
def State.stackAt (s : State) (j : Fin 16) : Word := s.stack.get j

/-- Push: `stack[sp] <- a; sp <- sp + 1`, or none when 16 entries are in use. -/
def State.push (s : State) (a : Word) : Option State :=
  if h : s.sp.val < 16 then
    some { s with stack := s.stack.set s.sp.val a h, sp := ⟨s.sp.val + 1, Nat.succ_lt_succ h⟩ }
  else none

/-- Pop: `sp <- sp - 1`, then read `stack[sp]`, or none when no entry is in use. The popped entry keeps its value. -/
def State.pop (s : State) : Option (Word × State) :=
  match s.sp with
  | ⟨0, _⟩ => none
  | ⟨j + 1, h⟩ => some (s.stackAt ⟨j, Nat.lt_of_succ_lt_succ h⟩, { s with sp := ⟨j, Nat.lt_of_succ_lt h⟩ })

/-! ## Keypad (10_state.md R31) -/

/-- `keypad[k]`. -/
def State.key (s : State) (k : Reg) : Bool := s.keypad.get k

/-- `keypad[k] <- b`: only the host's setters use it (60_exceptions.md R202). -/
def State.setKey (s : State) (k : Reg) (b : Bool) : State := { s with keypad := s.keypad.set k.val b k.isLt }

/-- The least pressed key, if a key is pressed (40_pipeline.md R102; 92_eei_decisions.md D12). -/
def State.lowestPressedKey (s : State) : Option Reg := (List.finRange 16).find? fun k => s.key k

/-! ## Framebuffer (10_state.md R32) -/

/-- The framebuffer cell at row `y`, column `x`. -/
def FrameBuffer.cell (fb : FrameBuffer) (y : Fin 32) (x : Fin 64) : Bool := (fb.get y).get x

/-- The framebuffer with the cell at row `y`, column `x` set to `b`. -/
def FrameBuffer.setCell (fb : FrameBuffer) (y : Fin 32) (x : Fin 64) (b : Bool) : FrameBuffer :=
  fb.set y.val ((fb.get y).set x.val b x.isLt) y.isLt

/-- Every cell unset. -/
def FrameBuffer.clear : FrameBuffer := Vector.replicate 32 (Vector.replicate 64 false)

/-- `fb[y][x]`. -/
def State.pixel (s : State) (y : Fin 32) (x : Fin 64) : Bool := FrameBuffer.cell s.fb y x

/-- The framebuffer replaced as a whole. -/
def State.setFb (s : State) (fb : FrameBuffer) : State := { s with fb := fb }

/-! ## Memory (10_state.md R33; 20_memory.md) -/

/-- What an address holds after reset: `FONT` at 0x000-0x04F, 0 elsewhere (10_state.md R40, R41). It is what an address that
memory does not list reads as. -/
def resetByte (font : Vector Byte 80) (a : Nat) : Byte := font.toList.getD a 0

/-- The byte listed at an address. -/
def Memory.lookup : Memory → Nat → Option Byte
  | [], _ => none
  | (k, b) :: m, a => if a = k then some b else Memory.lookup m a

/-- List a byte at an address, in its place. -/
def Memory.insert : Memory → Nat → Byte → Memory
  | [], a, b => [(a, b)]
  | (k, c) :: m, a, b =>
    if a < k then (a, b) :: (k, c) :: m
    else if a = k then (a, b) :: m
    else (k, c) :: Memory.insert m a b

/-- Take an address off the list. -/
def Memory.erase : Memory → Nat → Memory
  | [], _ => []
  | (k, c) :: m, a => if a = k then Memory.erase m a else (k, c) :: Memory.erase m a

/-- `mem[a]` (00_scope.md R15). -/
def Memory.read (font : Vector Byte 80) (m : Memory) (a : Nat) : Byte := (Memory.lookup m a).getD (resetByte font a)

/-- `mem[a] <- b` (00_scope.md R15): an address that again holds its reset contents is listed no longer. -/
def Memory.write (font : Vector Byte 80) (m : Memory) (a : Nat) (b : Byte) : Memory :=
  if b = resetByte font a then Memory.erase m a else Memory.insert m a b

/-- The canonical form: addresses rise, lie in 0x000-0xFFF (20_memory.md R50), and no entry repeats the reset contents. -/
abbrev Memory.wf (font : Vector Byte 80) (m : Memory) : Prop :=
  m.Pairwise (fun c d => c.1 < d.1) ∧ ∀ c ∈ m, c.1 < 0x1000 ∧ c.2 ≠ resetByte font c.1

/-- `MemRead(a, 1)` (00_scope.md R15). -/
def State.readByte (s : State) (a : Nat) : Byte := Memory.read s.params.font s.mem a

/-- `MemWrite(a, 1, b)` (00_scope.md R15). -/
def State.writeByte (s : State) (a : Nat) (b : Byte) : State := { s with mem := Memory.write s.params.font s.mem a b }

/-- Store bytes at consecutive addresses, the first at `a`, in order (44_index_memory.md R173, R174; 70_reset_and_hazards.md R223). -/
def State.storeBytes (s : State) (a : Nat) : List Byte → State
  | [] => s
  | b :: bs => State.storeBytes (s.writeByte a b) (a + 1) bs

/-! ## Checks and faults (00_scope.md R15, R16; 60_exceptions.md R192) -/

/-- `CheckRange(a, n)`: the fault for the lowest of `a .. a+n-1`, natural numbers, that exceeds 0xFFF, if one does. -/
def checkRange (a n : Nat) : Option FaultKind :=
  (((List.range n).map (a + ·)).find? (0xFFF < ·)).map .memoryOutOfRange

/-- `CheckWritable(a, n)`: under `PROTECT_LOW_MEMORY = true` the fault for the lowest of `a .. a+n-1` below 0x200, if one is. -/
def State.checkWritable (s : State) (a n : Nat) : Option FaultKind :=
  if s.params.protectLowMemory then (((List.range n).map (a + ·)).find? (· < 0x200)).map .protectedWrite else none

/-- Fault entry: `mode <- Faulted((k, at))` and nothing else (60_exceptions.md R192). -/
def State.enterFault (s : State) (k : FaultKind) (atPc : Word) : State := s.setMode (.faulted ⟨k, atPc⟩)

/-- `raise k` in an executing instruction (00_scope.md R16). An instruction raises before its first write, when `pc` still is
the address of the instruction plus 2 (40_pipeline.md R105), so the record's `at` is `pc - 2` (log entry 5). -/
def State.raise (s : State) (k : FaultKind) : Answer := .next (s.enterFault k (s.pc - 2))

/-- Run the rest of an instruction if a check passes; otherwise raise what it found. -/
def State.checked (s : State) (c : Option FaultKind) (rest : Answer) : Answer :=
  match c with
  | some k => s.raise k
  | none => rest

/-! ## Program counter (40_pipeline.md) -/

/-- The skip primitive `pc <- pc + 2` (40_pipeline.md R108), taken when the condition holds. -/
def State.skipIf (s : State) (c : Bool) : State := if c then s.setPc (s.pc + 2) else s

/-- The fetch check of 40_pipeline.md R103: `pc` even and in 0x200..0xFFE. -/
abbrev Fetchable (a : Word) : Prop := a.toNat % 2 = 0 ∧ 0x200 ≤ a.toNat ∧ a.toNat ≤ 0xFFE

/-- `MemRead(pc, 2)`: the word at `pc`, first byte in bits 15..8 (40_pipeline.md R104; 20_memory.md R54). -/
def State.fetchWord (s : State) : Word := s.readByte s.pc.toNat ++ s.readByte (s.pc.toNat + 1)

/-- The unconditional advance `pc <- pc + 2` of the fetch (40_pipeline.md R105). -/
def State.advancePc (s : State) : State := s.setPc (s.pc + 2)

/-! ## The key poll (40_pipeline.md R102) -/

/-- One poll of a core that waits for a key for register `x`: the least pressed key goes to `V[x]` and the core runs again; with
no key pressed nothing changes. -/
def State.poll (s : State) (x : Reg) : State :=
  match s.lowestPressedKey with
  | some k => (s.setReg x (BitVec.ofNat 8 k.val)).setMode .running
  | none => s

end Sys2Proof.Machine
end

