-- ==== Sys2Proof/Machine/Operands.lean ====
section
/-!
DEFINITION. The operand forms: addresses through `I`, jump targets, the shift source, the jump offset, the key operand, the
font address and the decimal digits.
-/

namespace Sys2Proof.Machine

/-- The data address `I + k`, a natural number without wrap (20_memory.md R51; 44_index_memory.md R176). -/
def State.dataAddr (s : State) (k : Nat) : Nat := s.i.toNat + k

/-- `zext_16(NNN)`, what an address field gives `pc` or `I` (30_encoding.md R83). -/
def addrOperand (nnn : AddrField) : Word := nnn.setWidth 16

/-- The `X` nibble of an address field, `NNN[11:8]`, the offset register of `BNNN` under `JUMP_QUIRK = VX` (41_flow.md R128). -/
def addrX (nnn : AddrField) : Reg := (nnn.extractLsb' 8 4).toFin

/-- The offset of `BNNN`: `V[0]`, or `V[X]` under `JUMP_QUIRK = VX` (41_flow.md R128). -/
def State.jumpOffset (s : State) (nnn : AddrField) : Byte :=
  match s.params.jumpQuirk with
  | .v0 => s.reg 0
  | .vx => s.reg (addrX nnn)

/-- The shift source of `8XY6` and `8XYE`: `V[X]`, or `V[Y]` under `SHIFT_QUIRK = VY` (43_alu.md R160, R162). -/
def State.shiftSource (s : State) (x y : Reg) : Byte :=
  match s.params.shiftQuirk with
  | .vx => s.reg x
  | .vy => s.reg y

/-- The key that a byte names: none for a byte above 15 (45_keys_timers.md R180, R181). -/
def keyOperand (b : Byte) : Option Reg := if h : b.toNat < 16 then some ⟨b.toNat, h⟩ else none

/-- `zext_16(b) * 5`, the font glyph base address (44_index_memory.md R172). -/
def glyphAddr (b : Byte) : Word := b.setWidth 16 * 5

/-- The three decimal digits of a byte, hundreds first (44_index_memory.md R173). -/
def bcdDigits (b : Byte) : List Byte :=
  [BitVec.ofNat 8 (b.toNat / 100), BitVec.ofNat 8 (b.toNat / 10 % 10), BitVec.ofNat 8 (b.toNat % 10)]

/-- `V[0]`..`V[x]`, the registers that `FX55` stores (44_index_memory.md R174). -/
def State.regsUpTo (s : State) (x : Reg) : List Byte := (List.range (x.val + 1)).map fun k => s.reg (Fin.ofNat 16 k)

end Sys2Proof.Machine
end

