-- ==== Sys2Proof/Machine/Flags.lean ====
section
/-!
DEFINITION. The results and flags of the flag-writing instructions (43_alu.md R150; 10_state.md R24) and the two writes they
make (43_alu.md R151).
-/

namespace Sys2Proof.Machine

/-- A flag as `VF` holds it: 1 or 0 (10_state.md R24). -/
def flagByte (b : Bool) : Byte := if b then 1 else 0

/-- The carry of `a + b`: 1 if the exact sum exceeds 255 (43_alu.md R150, R158). -/
def carryFlag (a b : Byte) : Byte := flagByte (255 < a.toNat + b.toNat)

/-- The no-borrow of `a - b`: 1 if `a >= b` (43_alu.md R150, R159, R161). -/
def noBorrowFlag (a b : Byte) : Byte := flagByte (b.toNat ≤ a.toNat)

/-- The bit that a right shift moves out, `src & 1` (43_alu.md R150, R160). -/
def shrOut (src : Byte) : Byte := src &&& 1

/-- The bit that a left shift moves out, `src >> 7` (43_alu.md R150, R162). -/
def shlOut (src : Byte) : Byte := src >>> 7

/-- `writeback(res, f)` (43_alu.md R151): both writes, in the order `VF_ORDER` gives. -/
def State.writeback (s : State) (x : Reg) (res f : Byte) : State :=
  match s.params.vfOrder with
  | .flagLast => (s.setReg x res).setReg regF f
  | .resultLast => (s.setReg regF f).setReg x res

end Sys2Proof.Machine
end

