-- ==== Sys2Proof/Machine/Alu.lean ====
section
/-!
DEFINITION. The ALU (43_alu.md): immediates, copies, logic, addition, subtraction, shifts and the random byte.
-/

namespace Sys2Proof.Machine

/-- `6XNN` LD Vx, byte (43_alu.md R152). -/
def execLdByte (x : Reg) (nn : Byte) (s : State) : Answer := .next (s.setReg x nn)

/-- `7XNN` ADD Vx, byte (43_alu.md R153): wraps, writes no flag. -/
def execAddByte (x : Reg) (nn : Byte) (s : State) : Answer := .next (s.setReg x (s.reg x + nn))

/-- `8XY0` LD Vx, Vy (43_alu.md R154). -/
def execLdReg (x y : Reg) (s : State) : Answer := .next (s.setReg x (s.reg y))

/-- `8XY1` OR Vx, Vy (43_alu.md R155). -/
def execOrReg (x y : Reg) (s : State) : Answer := .next (s.setReg x (s.reg x ||| s.reg y))

/-- `8XY2` AND Vx, Vy (43_alu.md R156). -/
def execAndReg (x y : Reg) (s : State) : Answer := .next (s.setReg x (s.reg x &&& s.reg y))

/-- `8XY3` XOR Vx, Vy (43_alu.md R157). -/
def execXorReg (x y : Reg) (s : State) : Answer := .next (s.setReg x (s.reg x ^^^ s.reg y))

/-- `8XY4` ADD Vx, Vy (43_alu.md R158). -/
def execAddReg (x y : Reg) (s : State) : Answer :=
  .next (s.writeback x (s.reg x + s.reg y) (carryFlag (s.reg x) (s.reg y)))

/-- `8XY5` SUB Vx, Vy (43_alu.md R159). -/
def execSubReg (x y : Reg) (s : State) : Answer :=
  .next (s.writeback x (s.reg x - s.reg y) (noBorrowFlag (s.reg x) (s.reg y)))

/-- `8XY6` SHR Vx, Vy (43_alu.md R160). -/
def execShrReg (x y : Reg) (s : State) : Answer :=
  .next (s.writeback x (s.shiftSource x y >>> 1) (shrOut (s.shiftSource x y)))

/-- `8XY7` SUBN Vx, Vy (43_alu.md R161). -/
def execSubnReg (x y : Reg) (s : State) : Answer :=
  .next (s.writeback x (s.reg y - s.reg x) (noBorrowFlag (s.reg y) (s.reg x)))

/-- `8XYE` SHL Vx, Vy (43_alu.md R162). -/
def execShlReg (x y : Reg) (s : State) : Answer :=
  .next (s.writeback x (s.shiftSource x y <<< 1) (shlOut (s.shiftSource x y)))

/-- The effect of `CXNN` with the random byte `r`: `V[X] <- r & NN`, one byte consumed (43_alu.md R163; 60_exceptions.md R205). -/
def State.random (s : State) (x : Reg) (nn r : Byte) : State := (s.setReg x (r &&& nn)).countDraw

/-- `CXNN` RND Vx, byte (43_alu.md R163): the byte is the next one of the random-byte port, a free value (log entry 3). -/
def execRndByte (x : Reg) (nn : Byte) (s : State) : Answer := .next (s.random x nn (Config.randomByte s.draws))

end Sys2Proof.Machine
end

