-- ==== Sys2Proof/Machine/Display.lean ====
section
/-!
DEFINITION. The display (42_display.md): clearing the framebuffer, and drawing a sprite with the collision detector.
-/

namespace Sys2Proof.Machine

/-- `00E0` CLS (42_display.md R141). -/
def execCls (s : State) : Answer := .next (s.setFb FrameBuffer.clear)

/-- The framebuffer row of sprite row `row` of a sprite at vertical position `y0`: `(y0 + row) mod 32` (42_display.md R140). -/
def spriteY (y0 : Byte) (row : Nat) : Fin 32 := Fin.ofNat 32 (y0.toNat + row)

/-- The framebuffer column of sprite column `col` of a sprite at horizontal position `x0`: `(x0 + col) mod 64` (42_display.md R140). -/
def spriteX (x0 : Byte) (col : Nat) : Fin 64 := Fin.ofNat 64 (x0.toNat + col)

/-- The sprite bit of column `col` in a sprite byte: bit `7 - col` (42_display.md R140). -/
def spriteBit (b : Byte) (col : Nat) : Bool := b.getLsbD (7 - col)

/-- A draw in progress: the framebuffer and `collide` (42_display.md R142). -/
abbrev Drawing := FrameBuffer × Bool

/-- XOR a set sprite bit onto one cell, and note a cell that was set (42_display.md R142, R143). -/
def flipCell (d : Drawing) (y : Fin 32) (x : Fin 64) : Drawing :=
  (FrameBuffer.setCell d.1 y x (!FrameBuffer.cell d.1 y x), d.2 || FrameBuffer.cell d.1 y x)

/-- Draw one sprite byte at framebuffer row `y` (42_display.md R142, the inner loop). -/
def drawByte (d : Drawing) (y : Fin 32) (x0 b : Byte) : Drawing :=
  (List.range 8).foldl (fun e col => if spriteBit b col then flipCell e y (spriteX x0 col) else e) d

/-- Draw the `n` bytes of the sprite at `mem[I]..` (42_display.md R142, the outer loop). -/
def State.drawSprite (s : State) (x0 y0 : Byte) (n : Nat) : Drawing :=
  (List.range n).foldl (fun d row => drawByte d (spriteY y0 row) x0 (s.readByte (s.dataAddr row))) (s.fb, false)

/-- `DXYN` DRW Vx, Vy, nibble (42_display.md R142). -/
def execDrw (x y : Reg) (n : Nat) (s : State) : Answer :=
  s.checked (checkRange (s.dataAddr 0) n)
    (.next ((s.setFb (s.drawSprite (s.reg x) (s.reg y) n).1).setReg regF
      (flagByte (s.drawSprite (s.reg x) (s.reg y) n).2)))

end Sys2Proof.Machine
end

