-- ==== Sys2Proof/Machine/Flow.lean ====
section
/-!
DEFINITION. Control flow (41_flow.md): the no-op, jumps, call and return, and the skips on registers. On entry of every
meaning `pc` is the address of the instruction plus 2 (40_pipeline.md R105).
-/

namespace Sys2Proof.Machine

/-- `0000` NOP (41_flow.md R120). -/
def execNop (s : State) : Answer := .next s

/-- `00EE` RET (41_flow.md R121). -/
def execRet (s : State) : Answer :=
  match s.pop with
  | none => s.raise .stackUnderflow
  | some (a, t) => .next (t.setPc a)

/-- `1NNN` JP addr (41_flow.md R122). -/
def execJpAddr (nnn : AddrField) (s : State) : Answer := .next (s.setPc (addrOperand nnn))

/-- `2NNN` CALL addr (41_flow.md R123). -/
def execCallAddr (nnn : AddrField) (s : State) : Answer :=
  match s.push s.pc with
  | none => s.raise .stackOverflow
  | some t => .next (t.setPc (addrOperand nnn))

/-- `3XNN` SE Vx, byte (41_flow.md R124). -/
def execSeByte (x : Reg) (nn : Byte) (s : State) : Answer := .next (s.skipIf (s.reg x == nn))

/-- `4XNN` SNE Vx, byte (41_flow.md R125). -/
def execSneByte (x : Reg) (nn : Byte) (s : State) : Answer := .next (s.skipIf (s.reg x != nn))

/-- `5XY0` SE Vx, Vy (41_flow.md R126). -/
def execSeReg (x y : Reg) (s : State) : Answer := .next (s.skipIf (s.reg x == s.reg y))

/-- `9XY0` SNE Vx, Vy (41_flow.md R127). -/
def execSneReg (x y : Reg) (s : State) : Answer := .next (s.skipIf (s.reg x != s.reg y))

/-- `BNNN` JP V0, addr (41_flow.md R128): the sum is not reduced modulo 0x1000. -/
def execJpV0Addr (nnn : AddrField) (s : State) : Answer :=
  .next (s.setPc (addrOperand nnn + (s.jumpOffset nnn).setWidth 16))

end Sys2Proof.Machine
end

