-- ==== Sys2Proof/Machine/IndexMemory.lean ====
section
/-!
DEFINITION. The index register and the transfers between registers and memory (44_index_memory.md). `I` never changes as a
side effect of a transfer (R176).
-/

namespace Sys2Proof.Machine

/-- `ANNN` LD I, addr (44_index_memory.md R170). -/
def execLdIAddr (nnn : AddrField) (s : State) : Answer := .next (s.setI (addrOperand nnn))

/-- `FX1E` ADD I, Vx (44_index_memory.md R171): modulo 65536, no flag. -/
def execAddIVx (x : Reg) (s : State) : Answer := .next (s.setI (s.i + (s.reg x).setWidth 16))

/-- `FX29` LD F, Vx (44_index_memory.md R172): no mask. -/
def execLdFVx (x : Reg) (s : State) : Answer := .next (s.setI (glyphAddr (s.reg x)))

/-- Store bytes at `mem[I]..`: CheckRange, then CheckWritable, then the writes (44_index_memory.md R173, R174). -/
def State.storeAtI (s : State) (bytes : List Byte) : Answer :=
  s.checked (checkRange (s.dataAddr 0) bytes.length)
    (s.checked (s.checkWritable (s.dataAddr 0) bytes.length) (.next (s.storeBytes (s.dataAddr 0) bytes)))

/-- `FX33` LD B, Vx (44_index_memory.md R173). -/
def execLdBVx (x : Reg) (s : State) : Answer := s.storeAtI (bcdDigits (s.reg x))

/-- The conventional block transfer, or the refusal of `BLOCK_QUIRK = ObservedSource` (44_index_memory.md R177). -/
def State.conventionalOnly (s : State) (k : Answer) : Answer :=
  match s.params.blockQuirk with
  | .conventional => k
  | .observedSource => .refused .observedBlockTransfer

/-- `FX55` LD [I], Vx (44_index_memory.md R174). -/
def execLdMemVx (x : Reg) (s : State) : Answer := s.conventionalOnly (s.storeAtI (s.regsUpTo x))

/-- `V[r] <- mem[I + r]` for the registers 0..X, the others unchanged (44_index_memory.md R175). -/
def State.loadRegs (s : State) (x : Reg) : State :=
  s.setRegs fun r => if r ≤ x then s.readByte (s.dataAddr r.val) else s.reg r

/-- `FX65` LD Vx, [I] (44_index_memory.md R175). -/
def execLdVxMem (x : Reg) (s : State) : Answer :=
  s.conventionalOnly (s.checked (checkRange (s.dataAddr 0) (x.val + 1)) (.next (s.loadRegs x)))

end Sys2Proof.Machine
end

