-- ==== Sys2Proof/Machine/KeysTimers.lean ====
section
/-!
DEFINITION. The keypad and timer instructions (45_keys_timers.md).
-/

namespace Sys2Proof.Machine

/-- Skip when the key that `V[x]` names is pressed as asked; `KeyIndexOutOfRange` for a value above 15 (45_keys_timers.md R180, R181). -/
def State.skipOnKey (s : State) (x : Reg) (pressed : Bool) : Answer :=
  match keyOperand (s.reg x) with
  | none => s.raise (.keyIndexOutOfRange (s.reg x))
  | some k => .next (s.skipIf (s.key k == pressed))

/-- `EX9E` SKP Vx (45_keys_timers.md R180). -/
def execSkp (x : Reg) (s : State) : Answer := s.skipOnKey x true

/-- `EXA1` SKNP Vx (45_keys_timers.md R181). -/
def execSknp (x : Reg) (s : State) : Answer := s.skipOnKey x false

/-- `FX07` LD Vx, DT (45_keys_timers.md R182). -/
def execLdVxDt (x : Reg) (s : State) : Answer := .next (s.setReg x s.dt)

/-- `FX0A` LD Vx, K (45_keys_timers.md R183): the dispatching step only enters the wait. -/
def execLdVxK (x : Reg) (s : State) : Answer := .next (s.setMode (.waitingForKey x))

/-- `FX15` LD DT, Vx (45_keys_timers.md R184). -/
def execLdDtVx (x : Reg) (s : State) : Answer := .next (s.setDt (s.reg x))

/-- `FX18` LD ST, Vx (45_keys_timers.md R185). -/
def execLdStVx (x : Reg) (s : State) : Answer := .next (s.setSt (s.reg x))

end Sys2Proof.Machine
end

