-- ==== Sys2Proof/Machine/Cycle.lean ====
section
/-!
DEFINITION. One fetch-decode-execute cycle of a running core (40_pipeline.md R103-R106), and the step's result (R110).
-/

namespace Sys2Proof.Machine

/-- The cycle (40_pipeline.md R106): the fetch check, the fetch, the advance, then the instruction of the word, or
`UnimplementedOpcode` for a word that matches no row. The advance stands when the rest raises (R105). -/
def State.cycle (s : State) : Answer :=
  if Fetchable s.pc then
    match decodeWord s.fetchWord with
    | some i => exec i s.advancePc
    | none => .next (s.advancePc.enterFault (.unimplementedOpcode s.fetchWord) s.pc)
  else .next (s.enterFault (.pcOutOfRange s.pc) s.pc)

/-- The result a step reports (40_pipeline.md R110). -/
inductive StepResult where
  /-- The step completed without a fault. -/
  | ok
  /-- The step raised, or the core was already faulted. -/
  | fault (r : FaultRecord)
deriving DecidableEq, Repr

/-- The result of the step that answered this state: `Fault(rec)` exactly when the state is `Faulted(rec)` (40_pipeline.md
R110, R101; log entry 1). -/
def State.stepResult (s : State) : StepResult :=
  match s.mode with
  | .running => .ok
  | .waitingForKey _ => .ok
  | .faulted r => .fault r

end Sys2Proof.Machine
end

