-- ==== Sys2Proof/Machine/Step.lean ====
section
/-!
DEFINITION. The step (40_pipeline.md R100), and placing one instruction where the next step fetches it.
-/

namespace Sys2Proof.Machine

/-- One `step()` (40_pipeline.md R100): nothing in `Faulted` (R101), a poll in `WaitingForKey` (R102), a cycle in `Running`. -/
def step (s : State) : Host.Outcome State Fault Refusal :=
  match s.mode with
  | .faulted _ => .next s
  | .waitingForKey x => .next (s.poll x)
  | .running => s.cycle

/-- The state with the instruction of the table's bits `w` stored where the next step fetches, and the core made to fetch
there: a core that is not `Running` runs, and a `pc` the fetch check refuses becomes the entry point 0x200 (log entry 9). -/
def State.withFetchWord (s : State) (nbits w : Nat) : State :=
  let a : Word := if Fetchable s.pc then s.pc else 0x200
  (((s.setMode .running).setPc a).writeByte a.toNat ((tableWord nbits w).extractLsb' 8 8)).writeByte (a.toNat + 1)
    ((tableWord nbits w).extractLsb' 0 8)

end Sys2Proof.Machine
end

