-- ==== Sys2Proof/Machine/HostPorts.lean ====
section
/-!
DEFINITION. The operations of the host (00_scope.md R8) beside `step`: construction and reset, loading, the timer driver, the
keypad setters and the read ports; and one function that runs any of them.
-/

namespace Sys2Proof.Machine

/-- `reset()` (70_reset_and_hazards.md R221): every field of the spec at its reset value, whatever the state was. The
parameters are the core's own, and the generator of random bytes is outside the core and goes on (60_exceptions.md R205). -/
def State.doReset (s : State) : State := { State.resetWith s.params with draws := s.draws }

/-- `new()` (70_reset_and_hazards.md R220): the constructed core with the given parameters. -/
def State.new (p : Params) : State := State.resetWith p

/-- The result of `load`. -/
inductive LoadResult where
  | ok
  | romTooLarge
deriving DecidableEq, Repr

/-- `load(bytes)` (70_reset_and_hazards.md R223, R224): copy to 0x200 onwards, or change nothing when it does not fit. -/
def State.load (s : State) (bytes : List Byte) : State × LoadResult :=
  if 0x200 + bytes.length ≤ 4096 then (s.storeBytes 0x200 bytes, .ok) else (s, .romTooLarge)

/-- A timer after one tick: one less, clamped at 0 (60_exceptions.md R199). -/
def tickTimer (b : Byte) : Byte := if b = 0 then 0 else b - 1

/-- `tick_timers()` (60_exceptions.md R199) and its audio cue, 1 exactly when `ST` was 1 (R200). -/
def State.tickTimers (s : State) : State × Bool := ((s.setDt (tickTimer s.dt)).setSt (tickTimer s.st), s.st == 1)

/-- `key_down(i)` (60_exceptions.md R202): an index of 16 or more changes nothing. -/
def State.keyDown (s : State) (i : Nat) : State := if h : i < 16 then s.setKey ⟨i, h⟩ true else s

/-- `key_up(i)` (60_exceptions.md R202): an index of 16 or more changes nothing. -/
def State.keyUp (s : State) (i : Nat) : State := if h : i < 16 then s.setKey ⟨i, h⟩ false else s

/-- `framebuffer()` (60_exceptions.md R203): the 2048 cells in row-major order. -/
def State.framebuffer (s : State) : List Bool := (List.finRange 32).flatMap fun y => (List.finRange 64).map fun x => s.pixel y x

/-- `delay_timer()` (60_exceptions.md R204). -/
def State.delayTimer (s : State) : Byte := s.dt

/-- `sound_timer()` (60_exceptions.md R204). -/
def State.soundTimer (s : State) : Byte := s.st

/-- The `mode` output (00_scope.md R10). -/
def State.modeOutput (s : State) : RunMode := s.mode

/-- An operation of the block (00_scope.md R8). -/
inductive HostOp where
  | new
  | reset
  | load (bytes : List Byte)
  | step
  | tickTimers
  | keyDown (i : Nat)
  | keyUp (i : Nat)
  | framebuffer
  | delayTimer
  | soundTimer
deriving DecidableEq, Repr

/-- What an operation gives back to the host. -/
inductive Response where
  | done
  | loaded (r : LoadResult)
  | stepped (r : StepResult)
  | audioCue (b : Bool)
  | cells (fb : List Bool)
  | timer (b : Byte)
deriving DecidableEq, Repr

/-- One operation of the host (00_scope.md R8): the next state and the response. Only `step` can be refused. `new` builds a
core with the same parameters. -/
def operate (op : HostOp) (s : State) : Host.Outcome (State × Response) Fault Refusal :=
  match op with
  | .new => .next ({ State.new s.params with draws := s.draws }, .done)
  | .reset => .next (s.doReset, .done)
  | .load bytes => .next ((s.load bytes).1, .loaded (s.load bytes).2)
  | .step =>
    match step s with
    | .next t => .next (t, .stepped t.stepResult)
    | .fault r => .fault r
    | .refused r => .refused r
  | .tickTimers => .next (s.tickTimers.1, .audioCue s.tickTimers.2)
  | .keyDown i => .next (s.keyDown i, .done)
  | .keyUp i => .next (s.keyUp i, .done)
  | .framebuffer => .next (s, .cells s.framebuffer)
  | .delayTimer => .next (s, .timer s.delayTimer)
  | .soundTimer => .next (s, .timer s.soundTimer)

/-- A sequence of operations in the order the host chose (00_scope.md R9), with the responses. -/
def operateAll : List HostOp → State → Host.Outcome (State × List Response) Fault Refusal
  | [], s => .next (s, [])
  | op :: ops, s =>
    match operate op s with
    | .next (t, r) =>
      match operateAll ops t with
      | .next (u, rs) => .next (u, r :: rs)
      | .fault e => .fault e
      | .refused e => .refused e
    | .fault e => .fault e
    | .refused e => .refused e

end Sys2Proof.Machine
end

