-- ==== Sys2Proof/Safety.lean ====
section
/-!
DEFINITION. The terms of the claims: the parts of the state and what it means that a part is unchanged (00_scope.md R17), the
words no row matches (30_encoding.md R87), and the invariant of a core.
-/

namespace Sys2Proof.Machine

/-- The parts of the state (10_state.md R21), and the model's own two fields. -/
inductive Part where
  | regs
  | index
  | pc
  | stack
  | delay
  | sound
  | keypad
  | display
  | memory
  | mode
  | params
  | draws
deriving DecidableEq, Repr

/-- A part of the state is the same in both states. Memory is compared byte by byte, through the one read of a byte. -/
def Part.same (s t : State) : Part → Prop
  | .regs => ∀ r, t.reg r = s.reg r
  | .index => t.i = s.i
  | .pc => t.pc = s.pc
  | .stack => t.sp = s.sp ∧ ∀ j, t.stackAt j = s.stackAt j
  | .delay => t.dt = s.dt
  | .sound => t.st = s.st
  | .keypad => ∀ k, t.key k = s.key k
  | .display => ∀ y x, t.pixel y x = s.pixel y x
  | .memory => ∀ a, t.readByte a = s.readByte a
  | .mode => t.mode = s.mode
  | .params => t.params = s.params
  | .draws => t.draws = s.draws

/-- Every part of the state outside the listed ones is the same (the frame rule, 00_scope.md R17). -/
def UnchangedExcept (changed : List Part) (s t : State) : Prop := ∀ p, p ∉ changed → p.same s t

/-- Every register outside the listed ones is the same. -/
def RegsUnchangedExcept (changed : List Reg) (s t : State) : Prop := ∀ r, r ∉ changed → t.reg r = s.reg r

/-- The words of 30_encoding.md R87, which no row matches. -/
def IllegalWord (w : Word) : Prop :=
  (fieldN1 w = 0x0#4 ∧ w ≠ 0x0000#16 ∧ w ≠ 0x00E0#16 ∧ w ≠ 0x00EE#16) ∨
  (fieldN1 w = 0x5#4 ∧ fieldN w ≠ 0#4) ∨
  (fieldN1 w = 0x8#4 ∧ fieldN w ∈ [0x8#4, 0x9#4, 0xA#4, 0xB#4, 0xC#4, 0xD#4, 0xF#4]) ∨
  (fieldN1 w = 0x9#4 ∧ fieldN w ≠ 0#4) ∨
  (fieldN1 w = 0xE#4 ∧ fieldNN w ∉ [0x9E#8, 0xA1#8]) ∨
  (fieldN1 w = 0xF#4 ∧ fieldNN w ∉ [0x07#8, 0x0A#8, 0x15#8, 0x18#8, 0x1E#8, 0x29#8, 0x33#8, 0x55#8, 0x65#8])

/-- The word of format NNN with family `op` and address `nnn`, by the places of 30_encoding.md R81. It does not use the encoder. -/
def wordNNN (op : Nat) (nnn : AddrField) : Word := BitVec.ofNat 16 (op * 0x1000 + nnn.toNat)

/-- The word of format XNN or XFF with family `op`, register `x` and low byte `nn`, by the places of 30_encoding.md R81. -/
def wordXNN (op : Nat) (x : Reg) (nn : Byte) : Word := BitVec.ofNat 16 (op * 0x1000 + x.val * 0x100 + nn.toNat)

/-- The word of format XYF or XYN with family `op`, registers `x`, `y` and low nibble `n`, by the places of 30_encoding.md R81. -/
def wordXYN (op : Nat) (x y : Reg) (n : Nat) : Word := BitVec.ofNat 16 (op * 0x1000 + x.val * 0x100 + y.val * 0x10 + n)

/-- Result `res` and flag `f` are written as 43_alu.md R151 says, and nothing else changes: both for `X` other than 0xF, and for
`X = 0xF` the one that `VF_ORDER` lets survive. -/
def WritesResultAndFlag (x : Reg) (res f : Nat) (s t : State) : Prop :=
  (x ≠ regF → (t.reg x).toNat = res ∧ (t.reg regF).toNat = f) ∧
  (x = regF → s.params.vfOrder = .flagLast → (t.reg regF).toNat = f) ∧
  (x = regF → s.params.vfOrder = .resultLast → (t.reg regF).toNat = res) ∧
  RegsUnchangedExcept [x, regF] s t ∧ UnchangedExcept [.regs] s t

/-- The instruction raises `k` in the state: it enters `Faulted` with the address of the instruction, and changes nothing else
(60_exceptions.md R192, R193). -/
def Raises (i : Instr) (s : State) (k : FaultKind) : Prop :=
  ∃ t, exec i s = .next t ∧ t.mode = .faulted ⟨k, s.pc - 2⟩ ∧ UnchangedExcept [.mode] s t

/-- The instruction answers a next state that is the same outside the listed parts. -/
def Completes (i : Instr) (s : State) (changed : List Part) (post : State → Prop) : Prop :=
  ∃ t, exec i s = .next t ∧ post t ∧ UnchangedExcept changed s t

/-- Whether an instruction skips in a state (40_pipeline.md R108, R109). -/
def skipTaken (i : Instr) (s : State) : Prop :=
  match i with
  | .seByte x nn => s.reg x = nn
  | .sneByte x nn => s.reg x ≠ nn
  | .seReg x y => s.reg x = s.reg y
  | .sneReg x y => s.reg x ≠ s.reg y
  | .skp x => ∃ k : Reg, (s.reg x).toNat = k.val ∧ s.key k = true
  | .sknp x => ∃ k : Reg, (s.reg x).toNat = k.val ∧ s.key k = false
  | _ => False

/-- Whether an instruction may write a register (its destination, and `VF` for the flag-writing instructions of 10_state.md R24). -/
def mayWriteReg (i : Instr) (r : Reg) : Prop :=
  match i with
  | .ldByte x _ => r = x
  | .addByte x _ => r = x
  | .ldReg x _ => r = x
  | .orReg x _ => r = x
  | .andReg x _ => r = x
  | .xorReg x _ => r = x
  | .addReg x _ => r = x ∨ r = regF
  | .subReg x _ => r = x ∨ r = regF
  | .shrReg x _ => r = x ∨ r = regF
  | .subnReg x _ => r = x ∨ r = regF
  | .shlReg x _ => r = x ∨ r = regF
  | .rndByte x _ => r = x
  | .drw _ _ _ => r = regF
  | .ldVxDt x => r = x
  | .ldVxMem x => r ≤ x
  | _ => False

/-- The core is in `Running` and its `pc` passes the fetch check (40_pipeline.md R103), so that a step fetches. -/
def State.Fetches (s : State) : Prop := s.mode = .running ∧ Fetchable s.pc

/-- The core is not faulted (10_state.md R34). -/
def State.NotFaulted (s : State) : Prop := ∀ r, s.mode ≠ .faulted r

/-- What a fault record says of the faulted core it stands in: the cause of 60_exceptions.md R190 holds of the state, and `pc`
is where R192 leaves it. -/
def FaultRecord.Truthful (r : FaultRecord) (s : State) : Prop :=
  match r.kind with
  | .stackOverflow => s.sp = 16 ∧ Fetchable r.atPc ∧ s.pc = r.atPc + 2
  | .stackUnderflow => s.sp = 0 ∧ Fetchable r.atPc ∧ s.pc = r.atPc + 2
  | .unimplementedOpcode w => decodeWord w = none ∧ Fetchable r.atPc ∧ s.pc = r.atPc + 2
  | .pcOutOfRange a => a = r.atPc ∧ ¬ Fetchable r.atPc ∧ s.pc = r.atPc
  | .memoryOutOfRange a => a = max s.i.toNat 0x1000 ∧ Fetchable r.atPc ∧ s.pc = r.atPc + 2
  | .protectedWrite a =>
    a = s.i.toNat ∧ a < 0x200 ∧ s.params.protectLowMemory = true ∧ Fetchable r.atPc ∧ s.pc = r.atPc + 2
  | .keyIndexOutOfRange k => 15 < k.toNat ∧ (∃ x, s.reg x = k) ∧ Fetchable r.atPc ∧ s.pc = r.atPc + 2

/-- The invariant of a core (10_state.md R39 and what keeps it inductive): memory keeps its canonical form, `pc` is at most
0x10FE, every stack entry is an address a fetch advance can leave, and a fault record says what is so. `sp <= 16` and
`x <= 15` in `WaitingForKey(x)` hold by their types. -/
structure State.Inv (s : State) : Prop where
  /-- Memory is in its canonical form. -/
  memory : Memory.wf s.params.font s.mem
  /-- `pc <= 0x10FE` (10_state.md R39). -/
  pc : s.pc.toNat ≤ 0x10FE
  /-- Every stack entry is at most 0x1000. -/
  stack : ∀ j, (s.stackAt j).toNat ≤ 0x1000
  /-- A fault record is truthful. -/
  fault : ∀ r, s.mode = .faulted r → r.Truthful s

end Sys2Proof.Machine
end

