-- ==== Sys2Proof/Certificates/Slice0/Obligations.lean ====
section
/-!
DEFINITION. The statements for the provers. In a statement about `exec i s` the state `s` is the one after the fetch advance, so
`s.pc` is the address of the instruction plus 2 (40_pipeline.md R105). D<n> is a row of spec/92_eei_decisions.md: a point the
spec decided by its own choice.
-/

open Sys2Proof Sys2Proof.Machine

/-! ## Encoding -/

/-- 30_encoding.md R82, R85: the bytes of every well-formed instruction decode to it, whatever bytes follow. -/
def Obligations.DecodeOfEncode : Prop :=
  ∀ i : Instr, i.wellFormed = true →
    decodeWord (encode i) = some i ∧ ∀ rest, decode (encodeBytes i ++ rest) = .ok (i, rest)

/-- 30_encoding.md R86: a word that decodes is the encoding of what it decodes to, which is well-formed; every legal word has one
meaning and no bit is dropped. -/
def Obligations.EncodeOfDecode : Prop :=
  ∀ (w : Word) (i : Instr), decodeWord w = some i → i.wellFormed = true ∧ encode i = w

/-- 30_encoding.md R86: decode is total, and selects as the match/mask table of R85 does. Exactly one row of the table selects a word
that decodes, and that row is the instruction's; no row selects a word that does not decode. A core that fetches a word of
the first sort runs its instruction, and one that fetches a word `w` that no row selects raises `UnimplementedOpcode(w)`. -/
def Obligations.DecoderSelectsAsTheTable : Prop :=
  (∀ w : Word,
    (∃ i, decodeWord w = some i ∧ ∀ r ∈ opcodeRows, (r.selects w = true ↔ r = i.row) ∧ i.row ∈ opcodeRows) ∨
    (decodeWord w = none ∧ ∀ r ∈ opcodeRows, r.selects w = false)) ∧
  opcodeRows.length = 35 ∧ opcodeRows.Nodup ∧
  (∀ (s : State) (i : Instr), s.Fetches → decodeWord s.fetchWord = some i → step s = exec i { s with pc := s.pc + 2 }) ∧
  ∀ s : State, s.Fetches → (∀ r ∈ opcodeRows, r.selects s.fetchWord = false) →
    ∃ t, step s = .next t ∧ ∃ a, t.mode = .faulted ⟨.unimplementedOpcode s.fetchWord, a⟩

/-- 60_exceptions.md R191: a fetching core raises `UnimplementedOpcode` for exactly the words of 30_encoding.md R87, with the word
as payload. -/
def Obligations.IllegalWordsRaiseUnimplementedOpcode : Prop :=
  ∀ s : State, s.Fetches →
    ((∃ t r, step s = .next t ∧ t.stepResult = .fault r ∧ r.kind = .unimplementedOpcode s.fetchWord) ↔
      IllegalWord s.fetchWord)

/-- Words written out from the formats of 30_encoding.md R82 and the rows of R85, one of each family. -/
def Obligations.WrittenOutWordsDecode : Prop :=
  decodeWord 0x00EE#16 = some .ret ∧ decodeWord 0x1ABC#16 = some (.jpAddr 0xABC) ∧
  decodeWord 0x3A14#16 = some (.seByte 0xA 0x14) ∧ decodeWord 0x8B27#16 = some (.subnReg 0xB 0x2) ∧
  decodeWord 0xDAB5#16 = some (.drw 0xA 0xB 5) ∧ decodeWord 0xE1A1#16 = some (.sknp 0x1) ∧
  decodeWord 0xF265#16 = some (.ldVxMem 0x2) ∧ decodeWord 0x8128#16 = none ∧ decodeWord 0x0123#16 = none

/-! ## The step -/

/-- 40_pipeline.md R104, R105, R106: when the two bytes at `pc`, the first in bits 15..8, decode to an instruction, the step of a
fetching core runs exactly it, on the state whose `pc` has been advanced by 2 and which is otherwise the same. -/
def Obligations.StepRunsTheDecodedInstruction : Prop :=
  ∀ (s : State) (i : Instr), s.Fetches →
    decode [s.readByte s.pc.toNat, s.readByte (s.pc.toNat + 1)] = .ok (i, []) →
      i.wellFormed = true ∧ step s = exec i { s with pc := s.pc + 2 } ∧ (s.pc + 2).toNat = s.pc.toNat + 2

/-- The fetch check, the spec's own choice D4 (log entry 1): a running core whose `pc` is odd, below 0x200 or above 0xFFE raises
`PcOutOfRange(pc)` with `at = pc`, and `pc` and everything else keep their values; with any other `pc` the step does not. -/
def Obligations.BadPcRaisesPcOutOfRange : Prop :=
  (∀ s : State, s.mode = .running → (s.pc.toNat % 2 = 1 ∨ s.pc.toNat < 0x200 ∨ 0xFFE < s.pc.toNat) →
    ∃ t, step s = .next t ∧ t.mode = .faulted ⟨.pcOutOfRange s.pc, s.pc⟩ ∧ UnchangedExcept [.mode] s t) ∧
  (∀ (s t : State) (a b : Word), s.Fetches → step s = .next t → t.mode ≠ .faulted ⟨.pcOutOfRange a, b⟩)

/-- A faulted core, the spec's own choice D6 (log entry 1): any number of steps leaves it as it is, and each reports its record
again. -/
def Obligations.FaultedCoreNeverMoves : Prop :=
  ∀ (s : State) (r : FaultRecord), s.mode = .faulted r →
    ∀ n, operateAll (List.replicate n .step) s = .next (s, List.replicate n (.stepped (.fault r)))

/-- 70_reset_and_hazards.md R227: with no key pressed, any number of steps of a core that waits for a key leaves it as it is, and
each is `Ok`. -/
def Obligations.WaitWithoutKeyNeverMoves : Prop :=
  ∀ (s : State) (x : Reg), s.mode = .waitingForKey x → (∀ k, s.key k = false) →
    ∀ n, operateAll (List.replicate n .step) s = .next (s, List.replicate n (.stepped .ok))

/-- The poll, with the spec's own choice D12 of the lowest key (log entry 1): when a key is pressed, the step of a core that waits
for `V[x]` writes the least pressed key there and the core runs again; nothing else changes. -/
def Obligations.PollTakesTheLowestPressedKey : Prop :=
  ∀ (s : State) (x k : Reg), s.mode = .waitingForKey x → s.key k = true → (∀ j, j < k → s.key j = false) →
    ∃ t, step s = .next t ∧ (t.reg x).toNat = k.val ∧ t.mode = .running ∧ RegsUnchangedExcept [x] s t ∧
      UnchangedExcept [.regs, .mode] s t

/-- 40_pipeline.md R111: every mode transition of a step, and that of the host operations only `new` and `reset` change the mode
besides. That a faulted core stays faulted, that a poll only polls and a held key ends the wait, and that `new` and `reset` give
`Running`, are the spec's own choices D6, D12, D24 (log entry 1). -/
def Obligations.ModeTransitions : Prop :=
  (∀ s t : State, s.mode = .running → step s = .next t →
    (t.mode = .running ∧ s.Fetches ∧ ∃ i, decodeWord s.fetchWord = some i ∧ ∀ x, i ≠ .ldVxK x) ∨
    (∃ x, s.Fetches ∧ decodeWord s.fetchWord = some (.ldVxK x) ∧ t.mode = .waitingForKey x) ∨
    (∃ r, t.mode = .faulted r)) ∧
  (∀ (s t : State) (x : Reg), s.mode = .waitingForKey x → step s = .next t →
    ((∀ k, s.key k = false) ∧ t.mode = .waitingForKey x) ∨
    (∃ k, s.key k = true ∧ t.mode = .running ∧ (t.reg x).toNat = k.val)) ∧
  (∀ (s t : State) (r : FaultRecord), s.mode = .faulted r → step s = .next t → t.mode = .faulted r) ∧
  (∀ (op : HostOp) (s t : State) (r : Response), operate op s = .next (t, r) →
    (op = .new ∨ op = .reset → t.mode = .running) ∧ (op ≠ .new → op ≠ .reset → op ≠ .step → t.mode = s.mode))

/-- 40_pipeline.md R109: the next `pc` of an instruction that completes at address `s.pc`, by kind. The register of `BNNN` under
`JUMP_QUIRK = VX` is a form the spec supplies from general knowledge (D17, log entry 2). -/
def Obligations.NextPcByKind : Prop :=
  ∀ (s t : State) (i : Instr), s.Fetches → decodeWord s.fetchWord = some i → step s = .next t → t.NotFaulted →
    (skipTaken i s → t.pc.toNat = s.pc.toNat + 4) ∧
    (∀ nnn, i = .jpAddr nnn ∨ i = .callAddr nnn → t.pc.toNat = nnn.toNat) ∧
    (∀ (nnn : AddrField) (x : Reg), i = .jpV0Addr nnn →
      (s.params.jumpQuirk = .v0 ∧ x = 0 ∨ s.params.jumpQuirk = .vx ∧ x.val = nnn.toNat / 0x100) →
      t.pc.toNat = nnn.toNat + (s.reg x).toNat) ∧
    (i = .ret → ∃ j : Reg, s.sp.val = j.val + 1 ∧ t.pc = s.stackAt j) ∧
    (¬ skipTaken i s → i ≠ .ret → (∀ nnn, i ≠ .jpAddr nnn ∧ i ≠ .callAddr nnn ∧ i ≠ .jpV0Addr nnn) →
      t.pc.toNat = s.pc.toNat + 2)

/-- Faults are precise; what a fault leaves is the spec's own choice D6, D7, D8 (log entry 1): a step that raises records the
address where it began, advances `pc` by 2 exactly when the fetch check passed, and changes nothing else. -/
def Obligations.RaisingStepMakesNoWrites : Prop :=
  ∀ (s t : State) (r : FaultRecord), s.mode = .running → step s = .next t → t.mode = .faulted r →
    r.atPc = s.pc ∧ t.stepResult = .fault r ∧ (Fetchable s.pc → t.pc.toNat = s.pc.toNat + 2) ∧
      (¬ Fetchable s.pc → t.pc = s.pc) ∧ UnchangedExcept [.pc, .mode] s t

/-- 60_exceptions.md R209, 44_index_memory.md R177: a step answers a next state, or is refused; it is refused exactly when a fetching
core with `BLOCK_QUIRK = ObservedSource` has fetched `FX55` or `FX65`. That this refusal is the one stop is the spec's own choice
D18 (log entry 6), and that every fault is a state the step enters is its choice D6 (log entry 1). -/
def Obligations.StepIsRefusedOnlyForObservedTransfers : Prop :=
  ∀ s : State,
    ((∃ t, step s = .next t) ∨ step s = .refused .observedBlockTransfer) ∧
    (step s = .refused .observedBlockTransfer ↔
      s.Fetches ∧ s.params.blockQuirk = .observedSource ∧
        ∃ x, decodeWord s.fetchWord = some (.ldMemVx x) ∨ decodeWord s.fetchWord = some (.ldVxMem x))

/-! ## The whole machine -/

/-- 10_state.md R39 in inductive form: every step of a core that meets the invariant leaves one that meets it. -/
def Obligations.StepKeepsTheInvariant : Prop :=
  ∀ s t : State, s.Inv → step s = .next t → t.Inv

/-- 10_state.md R39: the core right after reset meets the invariant, with any parameters. -/
def Obligations.ResetMeetsTheInvariant : Prop :=
  State.reset.Inv ∧ ∀ p : Params, (State.new p).Inv

/-- 00_scope.md R9, 10_state.md R39: every sequence of host operations, in any order the host chooses, keeps the invariant, and
the parameters of the core. -/
def Obligations.OperationsKeepTheInvariant : Prop :=
  ∀ (ops : List HostOp) (s t : State) (rs : List Response), s.Inv → operateAll ops s = .next (t, rs) →
    t.Inv ∧ t.params = s.params

/-- 10_state.md R26-R33, R36: a part of the state changes only by the instructions listed as its writers; the keypad by none. -/
def Obligations.PartsChangeOnlyByTheirWriters : Prop :=
  ∀ (i : Instr) (s t : State), exec i s = .next t →
    (t.dt ≠ s.dt → ∃ x, i = .ldDtVx x) ∧
    (t.st ≠ s.st → ∃ x, i = .ldStVx x) ∧
    (t.i ≠ s.i → (∃ nnn, i = .ldIAddr nnn) ∨ ∃ x, i = .addIVx x ∨ i = .ldFVx x) ∧
    ((t.sp ≠ s.sp ∨ ∃ j, t.stackAt j ≠ s.stackAt j) → i = .ret ∨ ∃ nnn, i = .callAddr nnn) ∧
    ((∃ y x, t.pixel y x ≠ s.pixel y x) → i = .cls ∨ ∃ x y n, i = .drw x y n) ∧
    ((∃ a, t.readByte a ≠ s.readByte a) → ∃ x, i = .ldBVx x ∨ i = .ldMemVx x) ∧
    (t.draws ≠ s.draws → ∃ x nn, i = .rndByte x nn) ∧
    (∀ k, t.key k = s.key k) ∧ t.params = s.params

/-- 10_state.md R24: a general register, `VF` among them, changes only by an instruction that has it as its destination or that
writes a flag into `VF`. -/
def Obligations.RegistersChangeOnlyByTheirWriters : Prop :=
  ∀ (i : Instr) (s t : State) (r : Reg), exec i s = .next t → t.reg r ≠ s.reg r → mayWriteReg i r

/-- 20_memory.md R61: a read of a byte gives the value of the most recent write to it, a write changes no other byte, and a write
inside the address space keeps memory in its canonical form. -/
def Obligations.ReadsSeeTheLatestWrite : Prop :=
  ∀ (s : State) (a c : Nat) (b : Byte),
    (s.writeByte a b).readByte a = b ∧ (c ≠ a → (s.writeByte a b).readByte c = s.readByte c) ∧
    (Memory.wf s.params.font s.mem → a < 0x1000 →
      Memory.wf (s.writeByte a b).params.font (s.writeByte a b).mem)

/-- 20_memory.md R63: a fetch sees what `FX55` stored by the instruction before it. -/
def Obligations.FetchSeesThePrecedingStore : Prop :=
  ∀ (s : State) (x k l : Reg), s.params.blockQuirk = .conventional → s.params.protectLowMemory = false →
    s.dataAddr x.val ≤ 0xFFF → l.val = k.val + 1 → l ≤ x → s.pc.toNat = s.dataAddr k.val →
    ∃ t, exec (.ldMemVx x) s = .next t ∧ t.pc = s.pc ∧ t.fetchWord.toNat = (s.reg k).toNat * 256 + (s.reg l).toNat

/-! ## Control flow -/

/-- 41_flow.md R120: `0000` decodes to the no-op, which changes nothing beyond the fetch advance; every other word `0NNN` but 00E0 and
00EE is illegal; a fetching core that fetches a zero word only moves `pc` by 2. -/
def Obligations.NopChangesNothing : Prop :=
  decodeWord 0x0000#16 = some .nop ∧
  (∀ w : Word, w.toNat < 0x1000 → w ≠ 0x0000#16 → w ≠ 0x00E0#16 → w ≠ 0x00EE#16 → decodeWord w = none) ∧
  (∀ s, Completes .nop s [] fun _ => True) ∧
  ∀ s : State, s.Fetches → s.readByte s.pc.toNat = 0 → s.readByte (s.pc.toNat + 1) = 0 →
    ∃ t, step s = .next t ∧ t.pc.toNat = s.pc.toNat + 2 ∧ UnchangedExcept [.pc] s t

/-- Zero-filled memory runs as no-ops to its end (41_flow.md R120, a corner case the spec derives; the fault at the end is the
spec's own choice D4, log entry 1): from `pc` on every byte is 0, so each step moves `pc` by 2 and changes nothing else, until
`pc` is 0x1000, and the step after raises `PcOutOfRange(0x1000)`; the results are `Ok` and then that fault. -/
def Obligations.ZeroedMemoryRunsToItsEnd : Prop :=
  ∀ (s : State) (n : Nat), s.Fetches → (∀ a, s.pc.toNat ≤ a → a ≤ 0xFFF → s.readByte a = 0) →
    s.pc.toNat + 2 * n = 0x1000 →
    (∀ k ≤ n, ∃ t, operateAll (List.replicate k .step) s = .next (t, List.replicate k (.stepped .ok)) ∧
      t.pc.toNat = s.pc.toNat + 2 * k ∧ UnchangedExcept [.pc] s t) ∧
    ∃ t, operateAll (List.replicate (n + 1) .step) s =
        .next (t, List.replicate n (.stepped .ok) ++ [.stepped (.fault ⟨.pcOutOfRange 0x1000, 0x1000⟩)]) ∧
      t.mode = .faulted ⟨.pcOutOfRange 0x1000, 0x1000⟩ ∧
      UnchangedExcept [.pc, .mode] s t

/-- 41_flow.md R122: `1NNN` writes the address to `pc` and nothing else. -/
def Obligations.JumpWritesPc : Prop :=
  ∀ (nnn : AddrField), decodeWord (wordNNN 0x1 nnn) = some (.jpAddr nnn) ∧
    ∀ s, Completes (.jpAddr nnn) s [.pc] fun t => t.pc.toNat = nnn.toNat

/-- 41_flow.md R128: `BNNN` writes `NNN + V[0]`, not reduced, to `pc`; under `JUMP_QUIRK = VX` (a form the spec supplies from general
knowledge, D17, log entry 2) it adds the register of the `X` nibble instead. -/
def Obligations.JumpWithOffsetWritesPc : Prop :=
  ∀ (nnn : AddrField), decodeWord (wordNNN 0xB nnn) = some (.jpV0Addr nnn) ∧
    (∀ s : State, s.params.jumpQuirk = .v0 →
      Completes (.jpV0Addr nnn) s [.pc] fun t => t.pc.toNat = nnn.toNat + (s.reg 0).toNat) ∧
    (∀ (s : State) (x : Reg), s.params.jumpQuirk = .vx → x.val = nnn.toNat / 0x100 →
      Completes (.jpV0Addr nnn) s [.pc] fun t => t.pc.toNat = nnn.toNat + (s.reg x).toNat)

/-- 41_flow.md R123: `2NNN` pushes the address after it and jumps when fewer than 16 entries are in use, and raises `StackOverflow`
with 16. The stack's indexing and the fault record are the spec's own choices D8, D10 (log entry 1). -/
def Obligations.CallPushesOrOverflows : Prop :=
  ∀ (nnn : AddrField), decodeWord (wordNNN 0x2 nnn) = some (.callAddr nnn) ∧
    (∀ (s : State) (j : Reg), s.sp.val = j.val →
      Completes (.callAddr nnn) s [.pc, .stack] fun t => t.pc.toNat = nnn.toNat ∧ t.sp.val = j.val + 1 ∧
        t.stackAt j = s.pc ∧ ∀ k, k ≠ j → t.stackAt k = s.stackAt k) ∧
    (∀ s : State, s.sp = 16 → Raises (.callAddr nnn) s .stackOverflow)

/-- 41_flow.md R121: `00EE` pops the most recent entry into `pc` when an entry is in use, every entry keeping its value, and raises
`StackUnderflow` with none. The stack's indexing and the fault record are the spec's own choices D8, D10 (log entry 1). -/
def Obligations.ReturnPopsOrUnderflows : Prop :=
  decodeWord 0x00EE#16 = some .ret ∧
    (∀ (s : State) (j : Reg), s.sp.val = j.val + 1 →
      Completes .ret s [.pc, .stack] fun t => t.pc = s.stackAt j ∧ t.sp.val = j.val ∧ ∀ k, t.stackAt k = s.stackAt k) ∧
    (∀ s : State, s.sp = 0 → Raises .ret s .stackUnderflow)

/-- 41_flow.md R121, R123 (95_test_vectors.md S6): a call and then a return bring `pc` to the address after the call and `sp` to
where it was, whatever the subroutine did to the registers, the index, the timers, the framebuffer and memory. -/
def Obligations.ReturnUndoesCall : Prop :=
  ∀ (s : State) (nnn : AddrField), s.sp.val < 16 →
    ∃ t, exec (.callAddr nnn) s = .next t ∧
      ∀ u : State, u.sp = t.sp → u.stack = t.stack →
        ∃ w, exec .ret u = .next w ∧ w.pc = s.pc ∧ w.sp = s.sp

/-- 41_flow.md R124, R125: `3XNN` skips when `V[X] = NN`, `4XNN` when not; nothing but `pc` changes. -/
def Obligations.SkipOnImmediate : Prop :=
  ∀ (x : Reg) (nn : Byte),
    decodeWord (wordXNN 0x3 x nn) = some (.seByte x nn) ∧ decodeWord (wordXNN 0x4 x nn) = some (.sneByte x nn) ∧
    ∀ s : State,
      (Completes (.seByte x nn) s [.pc] fun t => t.pc = if s.reg x = nn then s.pc + 2 else s.pc) ∧
      (Completes (.sneByte x nn) s [.pc] fun t => t.pc = if s.reg x = nn then s.pc else s.pc + 2)

/-- 41_flow.md R126, R127: `5XY0` skips when `V[X] = V[Y]`, `9XY0` when not; nothing but `pc` changes; a nonzero low nibble is
illegal. -/
def Obligations.SkipOnRegisters : Prop :=
  ∀ (x y : Reg),
    decodeWord (wordXYN 0x5 x y 0) = some (.seReg x y) ∧ decodeWord (wordXYN 0x9 x y 0) = some (.sneReg x y) ∧
    (∀ n, 0 < n → n < 16 → decodeWord (wordXYN 0x5 x y n) = none ∧ decodeWord (wordXYN 0x9 x y n) = none) ∧
    ∀ s : State,
      (Completes (.seReg x y) s [.pc] fun t => t.pc = if s.reg x = s.reg y then s.pc + 2 else s.pc) ∧
      (Completes (.sneReg x y) s [.pc] fun t => t.pc = if s.reg x = s.reg y then s.pc else s.pc + 2)

/-! ## Display -/

/-- 42_display.md R141: `00E0` unsets every cell of the framebuffer and changes nothing else. -/
def Obligations.ClearUnsetsEveryCell : Prop :=
  decodeWord 0x00E0#16 = some .cls ∧
    ∀ s, Completes .cls s [.display] fun t => ∀ y x, t.pixel y x = false

/-- 42_display.md R142, R143: `DXYN` inverts exactly the cells on which a set bit of the sprite lands and sets `VF` to 1 exactly when
one of them was set, else to 0. Which bit lands on which cell, and that every coordinate wraps, are the spec's own choices
D19, D20 (log entry 1): bit `7 - col` of byte `row` lands at `((V[Y] + row) mod 32, (V[X] + col) mod 64)`. -/
def Obligations.DrawInvertsCoveredCells : Prop :=
  ∀ (x y : Reg) (n : Nat), n < 16 →
    decodeWord (wordXYN 0xD x y n) = some (.drw x y n) ∧
    ∀ s : State, (n = 0 ∨ s.i.toNat + n - 1 ≤ 0xFFF) →
      Completes (.drw x y n) s [.display, .regs] fun t =>
        (∀ (py : Fin 32) (px : Fin 64),
          ((∃ row < n, ∃ col < 8, (s.readByte (s.i.toNat + row)).getLsbD (7 - col) = true ∧
              py.val = ((s.reg y).toNat + row) % 32 ∧ px.val = ((s.reg x).toNat + col) % 64) →
            t.pixel py px = !s.pixel py px) ∧
          ((¬ ∃ row < n, ∃ col < 8, (s.readByte (s.i.toNat + row)).getLsbD (7 - col) = true ∧
              py.val = ((s.reg y).toNat + row) % 32 ∧ px.val = ((s.reg x).toNat + col) % 64) →
            t.pixel py px = s.pixel py px)) ∧
        ((∃ py px, s.pixel py px = true ∧ t.pixel py px = false) → t.reg regF = 1) ∧
        ((¬ ∃ py px, s.pixel py px = true ∧ t.pixel py px = false) → t.reg regF = 0) ∧
        RegsUnchangedExcept [regF] s t

/-- 42_display.md R142 (95_test_vectors.md S8): drawing the same sprite twice at one place restores the framebuffer, and `VF` is 1
after the second draw exactly when the first one set a cell. The position registers are not `VF`, which the first draw
overwrites. -/
def Obligations.DrawTwiceRestores : Prop :=
  ∀ (s : State) (x y : Reg) (n : Nat), n < 16 → x ≠ regF → y ≠ regF → (n = 0 ∨ s.i.toNat + n - 1 ≤ 0xFFF) →
    ∃ t u, exec (.drw x y n) s = .next t ∧ exec (.drw x y n) t = .next u ∧
      (∀ py px, u.pixel py px = s.pixel py px) ∧
      (u.reg regF = 1 ↔ ∃ py px, s.pixel py px = false ∧ t.pixel py px = true) ∧
      (u.reg regF = 0 ↔ ¬ ∃ py px, s.pixel py px = false ∧ t.pixel py px = true)

/-! ## ALU -/

/-- 43_alu.md R152, R153: `6XNN` loads the byte, `7XNN` adds it modulo 256 and writes no flag; no other register and nothing else
changes. -/
def Obligations.ImmediateLoadAndAdd : Prop :=
  ∀ (x : Reg) (nn : Byte),
    decodeWord (wordXNN 0x6 x nn) = some (.ldByte x nn) ∧ decodeWord (wordXNN 0x7 x nn) = some (.addByte x nn) ∧
    ∀ s : State,
      (Completes (.ldByte x nn) s [.regs] fun t => t.reg x = nn ∧ RegsUnchangedExcept [x] s t) ∧
      (Completes (.addByte x nn) s [.regs] fun t =>
        (t.reg x).toNat = ((s.reg x).toNat + nn.toNat) % 256 ∧ RegsUnchangedExcept [x] s t)

/-- 43_alu.md R154, R155, R156, R157: `8XY0` copies, `8XY1`, `8XY2`, `8XY3` compute each bit by OR, AND, exclusive OR; no flag is
written, no other register and nothing else changes. -/
def Obligations.RegisterCopyAndLogic : Prop :=
  ∀ (x y : Reg),
    decodeWord (wordXYN 0x8 x y 0x0) = some (.ldReg x y) ∧ decodeWord (wordXYN 0x8 x y 0x1) = some (.orReg x y) ∧
    decodeWord (wordXYN 0x8 x y 0x2) = some (.andReg x y) ∧ decodeWord (wordXYN 0x8 x y 0x3) = some (.xorReg x y) ∧
    ∀ s : State,
      (Completes (.ldReg x y) s [.regs] fun t => t.reg x = s.reg y ∧ RegsUnchangedExcept [x] s t) ∧
      (Completes (.orReg x y) s [.regs] fun t =>
        (∀ k < 8, (t.reg x).getLsbD k = ((s.reg x).getLsbD k || (s.reg y).getLsbD k)) ∧ RegsUnchangedExcept [x] s t) ∧
      (Completes (.andReg x y) s [.regs] fun t =>
        (∀ k < 8, (t.reg x).getLsbD k = ((s.reg x).getLsbD k && (s.reg y).getLsbD k)) ∧ RegsUnchangedExcept [x] s t) ∧
      (Completes (.xorReg x y) s [.regs] fun t =>
        (∀ k < 8, (t.reg x).getLsbD k = ((s.reg x).getLsbD k ^^ (s.reg y).getLsbD k)) ∧ RegsUnchangedExcept [x] s t)

/-- 43_alu.md R158, R159, R161 with R151's two orders of the writes (`VF_ORDER`, an open parameter): the sum modulo 256 and the
carry; the difference modulo 256 and the no-borrow, either way round; all of the values before the instruction. -/
def Obligations.AddAndSubtractWriteFlags : Prop :=
  ∀ (x y : Reg),
    decodeWord (wordXYN 0x8 x y 0x4) = some (.addReg x y) ∧ decodeWord (wordXYN 0x8 x y 0x5) = some (.subReg x y) ∧
    decodeWord (wordXYN 0x8 x y 0x7) = some (.subnReg x y) ∧
    ∀ s : State,
      (∃ t, exec (.addReg x y) s = .next t ∧
        WritesResultAndFlag x (((s.reg x).toNat + (s.reg y).toNat) % 256)
          (if 255 < (s.reg x).toNat + (s.reg y).toNat then 1 else 0) s t) ∧
      (∃ t, exec (.subReg x y) s = .next t ∧
        WritesResultAndFlag x (((s.reg x).toNat + 256 - (s.reg y).toNat) % 256)
          (if (s.reg y).toNat ≤ (s.reg x).toNat then 1 else 0) s t) ∧
      (∃ t, exec (.subnReg x y) s = .next t ∧
        WritesResultAndFlag x (((s.reg y).toNat + 256 - (s.reg x).toNat) % 256)
          (if (s.reg x).toNat ≤ (s.reg y).toNat then 1 else 0) s t)

/-- 43_alu.md R160, R162 with R151's two orders of the writes: the shift source is `V[X]`, or `V[Y]` under `SHIFT_QUIRK = VY`; one
bit is shifted and the bit that leaves is the flag. -/
def Obligations.ShiftsWriteTheBitShiftedOut : Prop :=
  ∀ (x y : Reg),
    decodeWord (wordXYN 0x8 x y 0x6) = some (.shrReg x y) ∧ decodeWord (wordXYN 0x8 x y 0xE) = some (.shlReg x y) ∧
    ∀ (s : State) (z : Reg), (s.params.shiftQuirk = .vx ∧ z = x ∨ s.params.shiftQuirk = .vy ∧ z = y) →
      (∃ t, exec (.shrReg x y) s = .next t ∧
        WritesResultAndFlag x ((s.reg z).toNat / 2) ((s.reg z).toNat % 2) s t) ∧
      (∃ t, exec (.shlReg x y) s = .next t ∧
        WritesResultAndFlag x ((s.reg z).toNat * 2 % 256) ((s.reg z).toNat / 128) s t)

/-- 30_encoding.md R89: under `SHIFT_QUIRK = VX` the `Y` field of a shift, and under `JUMP_QUIRK = V0` the register of the `X` nibble of
`BNNN`, has no influence. -/
def Obligations.IgnoredFieldsHaveNoInfluence : Prop :=
  (∀ (s : State) (x y z : Reg), s.params.shiftQuirk = .vx →
    exec (.shrReg x y) s = exec (.shrReg x z) s ∧ exec (.shlReg x y) s = exec (.shlReg x z) s) ∧
  (∀ (s t u : State) (nnn : AddrField) (x : Reg) (b : Byte), s.params.jumpQuirk = .v0 → x ≠ 0 →
    exec (.jpV0Addr nnn) s = .next t → exec (.jpV0Addr nnn) (s.setReg x b) = .next u → u.pc = t.pc)

/-- 43_alu.md R163: `CXNN` writes the AND of `NN` and the byte the random-byte port supplies. The model's port is its own choice
(log entry 3): the byte is the free value `Config.randomByte` at the number of bytes consumed so far, and one more is
consumed. With `NN = 0` the result is 0 whatever the byte is. -/
def Obligations.RandomByteIsMasked : Prop :=
  ∀ (x : Reg) (nn : Byte), decodeWord (wordXNN 0xC x nn) = some (.rndByte x nn) ∧
    ∀ s : State, Completes (.rndByte x nn) s [.regs, .draws] fun t =>
      (∀ k < 8, (t.reg x).getLsbD k = ((Config.randomByte s.draws).getLsbD k && nn.getLsbD k)) ∧
      (nn = 0 → t.reg x = 0) ∧ t.draws = s.draws + 1 ∧ RegsUnchangedExcept [x] s t

/-! ## Index register and memory transfer -/

/-- 44_index_memory.md R170, R172: `ANNN` sets `I` to the address, `FX29` to five times `V[X]`, not masked; nothing else changes. -/
def Obligations.IndexLoads : Prop :=
  (∀ (nnn : AddrField), decodeWord (wordNNN 0xA nnn) = some (.ldIAddr nnn) ∧
    ∀ s, Completes (.ldIAddr nnn) s [.index] fun t => t.i.toNat = nnn.toNat) ∧
  (∀ (x : Reg), decodeWord (wordXNN 0xF x 0x29) = some (.ldFVx x) ∧
    ∀ s, Completes (.ldFVx x) s [.index] fun t => t.i.toNat = (s.reg x).toNat * 5)

/-- 44_index_memory.md R171: `FX1E` adds `V[X]` to `I` and writes no flag. That the sum wraps at 16 bits is the spec's own choice D13
(log entry 1). -/
def Obligations.IndexAddWrapsAtSixteenBits : Prop :=
  ∀ (x : Reg), decodeWord (wordXNN 0xF x 0x1E) = some (.addIVx x) ∧
    ∀ s : State, Completes (.addIVx x) s [.index] fun t => t.i.toNat = (s.i.toNat + (s.reg x).toNat) % 65536

/-- 44_index_memory.md R173: `FX33` stores the hundreds, tens and ones of `V[X]` at `I`, `I+1`, `I+2`, and every other byte reads as
before; `I` and everything else are unchanged. -/
def Obligations.BcdStoresThreeDigits : Prop :=
  ∀ (x : Reg), decodeWord (wordXNN 0xF x 0x33) = some (.ldBVx x) ∧
    ∀ s : State, s.dataAddr 2 ≤ 0xFFF → (s.params.protectLowMemory = true → 0x200 ≤ s.dataAddr 0) →
      Completes (.ldBVx x) s [.memory] fun t =>
        (t.readByte (s.dataAddr 0)).toNat = (s.reg x).toNat / 100 ∧
        (t.readByte (s.dataAddr 1)).toNat = (s.reg x).toNat / 10 % 10 ∧
        (t.readByte (s.dataAddr 2)).toNat = (s.reg x).toNat % 10 ∧
        ∀ a, a < s.dataAddr 0 ∨ s.dataAddr 3 ≤ a → t.readByte a = s.readByte a

/-- 44_index_memory.md R174: `FX55` stores `V[0]`..`V[X]` at `I`..`I+X`, and every other byte reads as before; `I` and everything else
are unchanged. -/
def Obligations.BlockStoreStoresRegisters : Prop :=
  ∀ (x : Reg), decodeWord (wordXNN 0xF x 0x55) = some (.ldMemVx x) ∧
    ∀ s : State, s.params.blockQuirk = .conventional → s.dataAddr x.val ≤ 0xFFF →
      (s.params.protectLowMemory = true → 0x200 ≤ s.dataAddr 0) →
      Completes (.ldMemVx x) s [.memory] fun t =>
        (∀ r, r ≤ x → t.readByte (s.dataAddr r.val) = s.reg r) ∧
        ∀ a, a < s.dataAddr 0 ∨ s.dataAddr (x.val + 1) ≤ a → t.readByte a = s.readByte a

/-- 44_index_memory.md R175: `FX65` loads `V[0]`..`V[X]` from `I`..`I+X`; the registers above `X`, `I`, memory and everything else are
unchanged; reads are never protected. -/
def Obligations.BlockLoadLoadsRegisters : Prop :=
  ∀ (x : Reg), decodeWord (wordXNN 0xF x 0x65) = some (.ldVxMem x) ∧
    ∀ s : State, s.params.blockQuirk = .conventional → s.dataAddr x.val ≤ 0xFFF →
      Completes (.ldVxMem x) s [.regs] fun t =>
        (∀ r, r ≤ x → t.reg r = s.readByte (s.dataAddr r.val)) ∧ ∀ r, x < r → t.reg r = s.reg r

/-- A data access past 0xFFF, the spec's own choice D5 (log entry 1): `DXYN`, `FX33`, `FX55` and `FX65` raise `MemoryOutOfRange` with the
lowest address above 0xFFF, whatever the protection, and change nothing else. -/
def Obligations.AccessPastMemoryRaises : Prop :=
  ∀ (s : State) (x y : Reg) (n : Nat),
    (0 < n → 0xFFF < s.dataAddr (n - 1) → Raises (.drw x y n) s (.memoryOutOfRange (max (s.dataAddr 0) 0x1000))) ∧
    (0xFFF < s.dataAddr 2 → Raises (.ldBVx x) s (.memoryOutOfRange (max (s.dataAddr 0) 0x1000))) ∧
    (s.params.blockQuirk = .conventional → 0xFFF < s.dataAddr x.val →
      Raises (.ldMemVx x) s (.memoryOutOfRange (max (s.dataAddr 0) 0x1000)) ∧
      Raises (.ldVxMem x) s (.memoryOutOfRange (max (s.dataAddr 0) 0x1000)))

/-- 20_memory.md R59: under `PROTECT_LOW_MEMORY = true` a store below 0x200 raises `ProtectedWrite` with its lowest address and changes
nothing else. The record is the spec's own choice D8, D15 (log entry 1). -/
def Obligations.ProtectedStoreRaises : Prop :=
  ∀ (s : State) (x : Reg), s.params.protectLowMemory = true → s.dataAddr 0 < 0x200 →
    Raises (.ldBVx x) s (.protectedWrite (s.dataAddr 0)) ∧
    (s.params.blockQuirk = .conventional → Raises (.ldMemVx x) s (.protectedWrite (s.dataAddr 0)))

/-- 44_index_memory.md R177, the spec's own choice D18 (log entry 6): under `BLOCK_QUIRK = ObservedSource` `FX55` and `FX65` are refused,
whatever the operands. -/
def Obligations.ObservedBlockTransferIsRefused : Prop :=
  ∀ (s : State) (x : Reg), s.params.blockQuirk = .observedSource →
    exec (.ldMemVx x) s = .refused .observedBlockTransfer ∧ exec (.ldVxMem x) s = .refused .observedBlockTransfer

/-! ## Keys and timers -/

/-- 45_keys_timers.md R180, R181: `EX9E` skips when the key `V[X]` is pressed, `EXA1` when it is not; nothing but `pc` changes. A `V[X]`
above 15 raises `KeyIndexOutOfRange(V[X])`, the spec's own choice D11 (log entry 1). -/
def Obligations.KeySkips : Prop :=
  ∀ (x : Reg),
    decodeWord (wordXNN 0xE x 0x9E) = some (.skp x) ∧ decodeWord (wordXNN 0xE x 0xA1) = some (.sknp x) ∧
    (∀ (s : State) (k : Reg), (s.reg x).toNat = k.val →
      (Completes (.skp x) s [.pc] fun t => t.pc = if s.key k = true then s.pc + 2 else s.pc) ∧
      (Completes (.sknp x) s [.pc] fun t => t.pc = if s.key k = true then s.pc else s.pc + 2)) ∧
    (∀ s : State, 15 < (s.reg x).toNat →
      Raises (.skp x) s (.keyIndexOutOfRange (s.reg x)) ∧ Raises (.sknp x) s (.keyIndexOutOfRange (s.reg x)))

/-- 45_keys_timers.md R182, R184, R185: `FX07` reads `DT`, `FX15` sets `DT`, `FX18` sets `ST`; nothing else changes, and no other
instruction changes `DT` or `ST`. -/
def Obligations.TimerTransfers : Prop :=
  (∀ (x : Reg),
    decodeWord (wordXNN 0xF x 0x07) = some (.ldVxDt x) ∧ decodeWord (wordXNN 0xF x 0x15) = some (.ldDtVx x) ∧
    decodeWord (wordXNN 0xF x 0x18) = some (.ldStVx x) ∧
    ∀ s : State,
      (Completes (.ldVxDt x) s [.regs] fun t => t.reg x = s.dt ∧ RegsUnchangedExcept [x] s t) ∧
      (Completes (.ldDtVx x) s [.delay] fun t => t.dt = s.reg x) ∧
      (Completes (.ldStVx x) s [.sound] fun t => t.st = s.reg x)) ∧
  ∀ (i : Instr) (s t : State), exec i s = .next t →
    (t.dt ≠ s.dt → ∃ x, i = .ldDtVx x) ∧ (t.st ≠ s.st → ∃ x, i = .ldStVx x)

/-- 45_keys_timers.md R183: the dispatching step of `FX0A` only enters the wait, also with a key held (the spec's own choice D12, log
entry 1); registers, `pc` and everything else are unchanged. -/
def Obligations.KeyWaitIsEntered : Prop :=
  ∀ (x : Reg), decodeWord (wordXNN 0xF x 0x0A) = some (.ldVxK x) ∧
    ∀ s, Completes (.ldVxK x) s [.mode] fun t => t.mode = .waitingForKey x

/-! ## Host operations -/

/-- 60_exceptions.md R199, R200: a tick takes one from each timer that is not 0, and its cue is 1 exactly when `ST` was 1; nothing else
changes, in any mode (the spec's own choice D22, log entry 1). -/
def Obligations.TickDecrementsTimers : Prop :=
  ∀ s : State,
    s.tickTimers.1.dt.toNat = s.dt.toNat - 1 ∧ s.tickTimers.1.st.toNat = s.st.toNat - 1 ∧
    (s.tickTimers.2 = true ↔ s.st.toNat = 1) ∧ UnchangedExcept [.delay, .sound] s s.tickTimers.1

/-- 60_exceptions.md R201 (95_test_vectors.md S9): `n` ticks take `n` from each timer, clamped at 0, and at most one of them gives a
cue: the one that finds `ST` at 1. -/
def Obligations.TicksCountDownToZero : Prop :=
  ∀ (s : State) (n : Nat),
    ((fun t : State => t.tickTimers.1)^[n] s).dt.toNat = s.dt.toNat - n ∧
    ((fun t : State => t.tickTimers.1)^[n] s).st.toNat = s.st.toNat - n ∧
    (((fun t : State => t.tickTimers.1)^[n] s).tickTimers.2 = true ↔ s.st.toNat = n + 1)

/-- 60_exceptions.md R202: `key_down` and `key_up` set and clear the key of their index and change nothing else; an index of 16 or more
changes nothing (the spec's own choice D23, log entry 1). -/
def Obligations.KeySettersChangeOneKey : Prop :=
  (∀ (s : State) (k : Reg),
    (s.keyDown k.val).key k = true ∧ (s.keyUp k.val).key k = false ∧
    (∀ j, j ≠ k → (s.keyDown k.val).key j = s.key j ∧ (s.keyUp k.val).key j = s.key j) ∧
    UnchangedExcept [.keypad] s (s.keyDown k.val) ∧ UnchangedExcept [.keypad] s (s.keyUp k.val)) ∧
  (∀ (s : State) (i : Nat), 16 ≤ i → s.keyDown i = s ∧ s.keyUp i = s)

/-- 70_reset_and_hazards.md R223: a `load` that fits copies the bytes to 0x200 onwards and every other byte reads as before; nothing
else changes, in any mode (the spec's own choice D28, log entry 1). -/
def Obligations.LoadCopiesTheRom : Prop :=
  ∀ (s : State) (bytes : List Byte), 0x200 + bytes.length ≤ 4096 →
    (s.load bytes).2 = .ok ∧
    (∀ j < bytes.length, some ((s.load bytes).1.readByte (0x200 + j)) = bytes[j]?) ∧
    (∀ a, a < 0x200 ∨ 0x200 + bytes.length ≤ a → (s.load bytes).1.readByte a = s.readByte a) ∧
    UnchangedExcept [.memory] s (s.load bytes).1

/-- 70_reset_and_hazards.md R224: a `load` of more than 3584 bytes answers `RomTooLarge` and changes no state. -/
def Obligations.LoadTooLargeChangesNothing : Prop :=
  ∀ (s : State) (bytes : List Byte), 3584 < bytes.length → s.load bytes = (s, .romTooLarge)

/-- 70_reset_and_hazards.md R221, 10_state.md R41: `reset()` puts every piece of state to its reset value, whatever it was; the mode is
`Running` (the spec's own choice D24, log entry 1); the parameters and the generator of random bytes are not the core's
state and stay (log entries 2, 3). -/
def Obligations.ResetRestoresEveryPart : Prop :=
  ∀ s : State,
    (∀ r, s.doReset.reg r = 0) ∧ s.doReset.i = 0 ∧ s.doReset.pc = 0x200 ∧ s.doReset.sp = 0 ∧
    (∀ j, s.doReset.stackAt j = 0) ∧ s.doReset.dt = 0 ∧ s.doReset.st = 0 ∧ (∀ k, s.doReset.key k = false) ∧
    (∀ y x, s.doReset.pixel y x = false) ∧ (∀ a : Fin 80, s.doReset.readByte a.val = s.params.font.get a) ∧
    (∀ a, 80 ≤ a → s.doReset.readByte a = 0) ∧ s.doReset.mode = .running ∧
    UnchangedExcept [.regs, .index, .pc, .stack, .delay, .sound, .keypad, .display, .memory, .mode] s s.doReset

/-- 60_exceptions.md R203, R204: the framebuffer port gives 2048 cells, cell `(y, x)` as element `y * 64 + x`, the timer ports give `DT` and
`ST`, and none of them changes the state. -/
def Obligations.ReadPortsHaveNoSideEffect : Prop :=
  ∀ s : State,
    (∃ cells, operate .framebuffer s = .next (s, .cells cells) ∧ cells.length = 2048 ∧
      ∀ (y : Fin 32) (x : Fin 64), cells[y.val * 64 + x.val]? = some (s.pixel y x)) ∧
    operate .delayTimer s = .next (s, .timer s.dt) ∧ operate .soundTimer s = .next (s, .timer s.st)
end

