-- ==== Sys2Proof/Laws/Decode.lean ====
section
/-!
SUPPORT. The fields of a word that is written out by format (30_encoding.md R81, R82).
-/

namespace Sys2Proof

section
variable (op n : BitVec 4) (x y : Reg) (nn : Byte) (nnn : AddrField)

theorem fieldN1_toNat (w : Word) : (fieldN1 w).toNat = w.toNat / 4096 := by
  have := w.isLt
  simp [fieldN1, BitVec.extractLsb'_toNat, Nat.shiftRight_eq_div_pow]; omega

theorem fieldX_val (w : Word) : (fieldX w).val = w.toNat / 256 % 16 := by
  simp [fieldX, Nat.shiftRight_eq_div_pow]

theorem fieldY_val (w : Word) : (fieldY w).val = w.toNat / 16 % 16 := by
  simp [fieldY, Nat.shiftRight_eq_div_pow]

theorem fieldN_toNat (w : Word) : (fieldN w).toNat = w.toNat % 16 := by
  simp [fieldN, BitVec.extractLsb'_toNat]

theorem fieldNN_toNat (w : Word) : (fieldNN w).toNat = w.toNat % 256 := by
  simp [fieldNN, BitVec.extractLsb'_toNat]

theorem fieldNNN_toNat (w : Word) : (fieldNNN w).toNat = w.toNat % 4096 := by
  simp [fieldNNN, BitVec.extractLsb'_toNat]

theorem encodeNNN_toNat : (encodeNNN op nnn).toNat = op.toNat * 4096 + nnn.toNat := by
  have := nnn.isLt
  simp only [encodeNNN, BitVec.toNat_append]
  rw [← Nat.shiftLeft_add_eq_or_of_lt nnn.isLt, Nat.shiftLeft_eq]

theorem encodeXNN_toNat : (encodeXNN op x nn).toNat = op.toNat * 4096 + x.val * 256 + nn.toNat := by
  have hx : (BitVec.ofFin x : BitVec 4).toNat < 2 ^ 4 := (BitVec.ofFin x : BitVec 4).isLt
  simp only [encodeXNN, BitVec.toNat_append]
  rw [← Nat.shiftLeft_add_eq_or_of_lt nn.isLt, ← Nat.shiftLeft_add_eq_or_of_lt hx, Nat.shiftLeft_eq, Nat.shiftLeft_eq]
  simp only [BitVec.toNat_ofFin]; omega

theorem encodeXYN_toNat : (encodeXYN op x y n).toNat = op.toNat * 4096 + x.val * 256 + y.val * 16 + n.toNat := by
  have hx : (BitVec.ofFin x : BitVec 4).toNat < 2 ^ 4 := (BitVec.ofFin x : BitVec 4).isLt
  have hy : (BitVec.ofFin y : BitVec 4).toNat < 2 ^ 4 := (BitVec.ofFin y : BitVec 4).isLt
  simp only [encodeXYN, BitVec.toNat_append]
  rw [← Nat.shiftLeft_add_eq_or_of_lt n.isLt, ← Nat.shiftLeft_add_eq_or_of_lt hy, ← Nat.shiftLeft_add_eq_or_of_lt hx,
    Nat.shiftLeft_eq, Nat.shiftLeft_eq, Nat.shiftLeft_eq]
  simp only [BitVec.toNat_ofFin]; omega

@[simp] theorem fieldN1_encodeNNN : fieldN1 (encodeNNN op nnn) = op := by
  apply BitVec.eq_of_toNat_eq; have := nnn.isLt; rw [fieldN1_toNat, encodeNNN_toNat]; omega

@[simp] theorem fieldNNN_encodeNNN : fieldNNN (encodeNNN op nnn) = nnn := by
  apply BitVec.eq_of_toNat_eq; have := nnn.isLt; rw [fieldNNN_toNat, encodeNNN_toNat]; omega

@[simp] theorem fieldN1_encodeXNN : fieldN1 (encodeXNN op x nn) = op := by
  apply BitVec.eq_of_toNat_eq; have := nn.isLt; have := x.isLt; rw [fieldN1_toNat, encodeXNN_toNat]; omega

@[simp] theorem fieldX_encodeXNN : fieldX (encodeXNN op x nn) = x := by
  apply Fin.ext; have := nn.isLt; have := x.isLt; rw [fieldX_val, encodeXNN_toNat]; omega

@[simp] theorem fieldNN_encodeXNN : fieldNN (encodeXNN op x nn) = nn := by
  apply BitVec.eq_of_toNat_eq; have := nn.isLt; rw [fieldNN_toNat, encodeXNN_toNat]; omega

@[simp] theorem fieldN1_encodeXYN : fieldN1 (encodeXYN op x y n) = op := by
  apply BitVec.eq_of_toNat_eq; have := n.isLt; have := x.isLt; have := y.isLt; rw [fieldN1_toNat, encodeXYN_toNat]; omega

@[simp] theorem fieldX_encodeXYN : fieldX (encodeXYN op x y n) = x := by
  apply Fin.ext; have := n.isLt; have := x.isLt; have := y.isLt; rw [fieldX_val, encodeXYN_toNat]; omega

@[simp] theorem fieldY_encodeXYN : fieldY (encodeXYN op x y n) = y := by
  apply Fin.ext; have := n.isLt; have := x.isLt; have := y.isLt; rw [fieldY_val, encodeXYN_toNat]; omega

@[simp] theorem fieldN_encodeXYN : fieldN (encodeXYN op x y n) = n := by
  apply BitVec.eq_of_toNat_eq; have := n.isLt; rw [fieldN_toNat, encodeXYN_toNat]; omega

end

/-! ## A word as its fields, and under the masks of the opcode map -/

theorem encodeNNN_fields (w : Word) : encodeNNN (fieldN1 w) (fieldNNN w) = w := by
  apply BitVec.eq_of_toNat_eq; have := w.isLt; rw [encodeNNN_toNat, fieldN1_toNat, fieldNNN_toNat]; omega

theorem encodeXNN_fields (w : Word) : encodeXNN (fieldN1 w) (fieldX w) (fieldNN w) = w := by
  apply BitVec.eq_of_toNat_eq; have := w.isLt; rw [encodeXNN_toNat, fieldN1_toNat, fieldX_val, fieldNN_toNat]; omega

theorem encodeXYN_fields (w : Word) : encodeXYN (fieldN1 w) (fieldX w) (fieldY w) (fieldN w) = w := by
  apply BitVec.eq_of_toNat_eq; have := w.isLt
  rw [encodeXYN_toNat, fieldN1_toNat, fieldX_val, fieldY_val, fieldN_toNat]; omega

/-- The mask 0xF000 keeps the family nibble. -/
theorem and_maskNNN (w : Word) : w &&& 0xF000#16 = encodeNNN (fieldN1 w) 0 := by
  apply BitVec.eq_of_getLsbD_eq; intro k hk
  simp only [encodeNNN, fieldN1, BitVec.getLsbD_and, BitVec.getLsbD_append, BitVec.getLsbD_extractLsb']
  interval_cases k <;> simp

/-- The mask 0xF0FF keeps the family nibble and the low byte. -/
theorem and_maskXFF (w : Word) : w &&& 0xF0FF#16 = encodeXNN (fieldN1 w) 0 (fieldNN w) := by
  apply BitVec.eq_of_getLsbD_eq; intro k hk
  simp only [encodeXNN, fieldN1, fieldNN, BitVec.getLsbD_and, BitVec.getLsbD_append, BitVec.getLsbD_extractLsb']
  interval_cases k <;> simp

/-- The mask 0xF00F keeps the family nibble and the low nibble. -/
theorem and_maskXYF (w : Word) : w &&& 0xF00F#16 = encodeXYN (fieldN1 w) 0 0 (fieldN w) := by
  apply BitVec.eq_of_getLsbD_eq; intro k hk
  simp only [encodeXYN, fieldN1, fieldN, BitVec.getLsbD_and, BitVec.getLsbD_append, BitVec.getLsbD_extractLsb']
  interval_cases k <;> simp

/-- The mask 0xFFFF keeps every bit. -/
theorem and_maskFIX (w : Word) : w &&& 0xFFFF#16 = w := by
  apply BitVec.eq_of_getLsbD_eq; intro k hk
  interval_cases k <;> simp

end Sys2Proof
end

