-- ==== Sys2Proof/Laws/State.lean ====
section
/-!
SUPPORT. The fields of a state after each update: one lemma per field per update, each true by rfl. The lemmas about the part
an update changes, where that is an entry of a register file, stand in Laws/Ops.lean and Laws/Memory.lean.
-/

namespace Sys2Proof.Machine

variable (s : State)

/-! ## `setReg` -/

@[simp] theorem State.setReg_i (x : Reg) (b : Byte) : (s.setReg x b).i = s.i := rfl
@[simp] theorem State.setReg_pc (x : Reg) (b : Byte) : (s.setReg x b).pc = s.pc := rfl
@[simp] theorem State.setReg_sp (x : Reg) (b : Byte) : (s.setReg x b).sp = s.sp := rfl
@[simp] theorem State.setReg_stack (x : Reg) (b : Byte) : (s.setReg x b).stack = s.stack := rfl
@[simp] theorem State.setReg_dt (x : Reg) (b : Byte) : (s.setReg x b).dt = s.dt := rfl
@[simp] theorem State.setReg_st (x : Reg) (b : Byte) : (s.setReg x b).st = s.st := rfl
@[simp] theorem State.setReg_keypad (x : Reg) (b : Byte) : (s.setReg x b).keypad = s.keypad := rfl
@[simp] theorem State.setReg_fb (x : Reg) (b : Byte) : (s.setReg x b).fb = s.fb := rfl
@[simp] theorem State.setReg_mem (x : Reg) (b : Byte) : (s.setReg x b).mem = s.mem := rfl
@[simp] theorem State.setReg_mode (x : Reg) (b : Byte) : (s.setReg x b).mode = s.mode := rfl
@[simp] theorem State.setReg_params (x : Reg) (b : Byte) : (s.setReg x b).params = s.params := rfl
@[simp] theorem State.setReg_draws (x : Reg) (b : Byte) : (s.setReg x b).draws = s.draws := rfl
@[simp] theorem State.setReg_stackAt (x : Reg) (b : Byte) (j : Reg) : (s.setReg x b).stackAt j = s.stackAt j := rfl
@[simp] theorem State.setReg_key (x : Reg) (b : Byte) (q : Reg) : (s.setReg x b).key q = s.key q := rfl
@[simp] theorem State.setReg_pixel (x : Reg) (b : Byte) (y : Fin 32) (z : Fin 64) : (s.setReg x b).pixel y z = s.pixel y z := rfl
@[simp] theorem State.setReg_readByte (x : Reg) (b : Byte) (n : Nat) : (s.setReg x b).readByte n = s.readByte n := rfl

/-! ## `setRegs` -/

@[simp] theorem State.setRegs_i (f : Reg → Byte) : (s.setRegs f).i = s.i := rfl
@[simp] theorem State.setRegs_pc (f : Reg → Byte) : (s.setRegs f).pc = s.pc := rfl
@[simp] theorem State.setRegs_sp (f : Reg → Byte) : (s.setRegs f).sp = s.sp := rfl
@[simp] theorem State.setRegs_stack (f : Reg → Byte) : (s.setRegs f).stack = s.stack := rfl
@[simp] theorem State.setRegs_dt (f : Reg → Byte) : (s.setRegs f).dt = s.dt := rfl
@[simp] theorem State.setRegs_st (f : Reg → Byte) : (s.setRegs f).st = s.st := rfl
@[simp] theorem State.setRegs_keypad (f : Reg → Byte) : (s.setRegs f).keypad = s.keypad := rfl
@[simp] theorem State.setRegs_fb (f : Reg → Byte) : (s.setRegs f).fb = s.fb := rfl
@[simp] theorem State.setRegs_mem (f : Reg → Byte) : (s.setRegs f).mem = s.mem := rfl
@[simp] theorem State.setRegs_mode (f : Reg → Byte) : (s.setRegs f).mode = s.mode := rfl
@[simp] theorem State.setRegs_params (f : Reg → Byte) : (s.setRegs f).params = s.params := rfl
@[simp] theorem State.setRegs_draws (f : Reg → Byte) : (s.setRegs f).draws = s.draws := rfl
@[simp] theorem State.setRegs_stackAt (f : Reg → Byte) (j : Reg) : (s.setRegs f).stackAt j = s.stackAt j := rfl
@[simp] theorem State.setRegs_key (f : Reg → Byte) (q : Reg) : (s.setRegs f).key q = s.key q := rfl
@[simp] theorem State.setRegs_pixel (f : Reg → Byte) (y : Fin 32) (z : Fin 64) : (s.setRegs f).pixel y z = s.pixel y z := rfl
@[simp] theorem State.setRegs_readByte (f : Reg → Byte) (n : Nat) : (s.setRegs f).readByte n = s.readByte n := rfl

/-! ## `setI` -/

@[simp] theorem State.setI_v (a : Word) : (s.setI a).v = s.v := rfl
@[simp] theorem State.setI_i (a : Word) : (s.setI a).i = a := rfl
@[simp] theorem State.setI_pc (a : Word) : (s.setI a).pc = s.pc := rfl
@[simp] theorem State.setI_sp (a : Word) : (s.setI a).sp = s.sp := rfl
@[simp] theorem State.setI_stack (a : Word) : (s.setI a).stack = s.stack := rfl
@[simp] theorem State.setI_dt (a : Word) : (s.setI a).dt = s.dt := rfl
@[simp] theorem State.setI_st (a : Word) : (s.setI a).st = s.st := rfl
@[simp] theorem State.setI_keypad (a : Word) : (s.setI a).keypad = s.keypad := rfl
@[simp] theorem State.setI_fb (a : Word) : (s.setI a).fb = s.fb := rfl
@[simp] theorem State.setI_mem (a : Word) : (s.setI a).mem = s.mem := rfl
@[simp] theorem State.setI_mode (a : Word) : (s.setI a).mode = s.mode := rfl
@[simp] theorem State.setI_params (a : Word) : (s.setI a).params = s.params := rfl
@[simp] theorem State.setI_draws (a : Word) : (s.setI a).draws = s.draws := rfl
@[simp] theorem State.setI_reg (a : Word) (r : Reg) : (s.setI a).reg r = s.reg r := rfl
@[simp] theorem State.setI_stackAt (a : Word) (j : Reg) : (s.setI a).stackAt j = s.stackAt j := rfl
@[simp] theorem State.setI_key (a : Word) (q : Reg) : (s.setI a).key q = s.key q := rfl
@[simp] theorem State.setI_pixel (a : Word) (y : Fin 32) (z : Fin 64) : (s.setI a).pixel y z = s.pixel y z := rfl
@[simp] theorem State.setI_readByte (a : Word) (n : Nat) : (s.setI a).readByte n = s.readByte n := rfl

/-! ## `setPc` -/

@[simp] theorem State.setPc_v (a : Word) : (s.setPc a).v = s.v := rfl
@[simp] theorem State.setPc_i (a : Word) : (s.setPc a).i = s.i := rfl
@[simp] theorem State.setPc_pc (a : Word) : (s.setPc a).pc = a := rfl
@[simp] theorem State.setPc_sp (a : Word) : (s.setPc a).sp = s.sp := rfl
@[simp] theorem State.setPc_stack (a : Word) : (s.setPc a).stack = s.stack := rfl
@[simp] theorem State.setPc_dt (a : Word) : (s.setPc a).dt = s.dt := rfl
@[simp] theorem State.setPc_st (a : Word) : (s.setPc a).st = s.st := rfl
@[simp] theorem State.setPc_keypad (a : Word) : (s.setPc a).keypad = s.keypad := rfl
@[simp] theorem State.setPc_fb (a : Word) : (s.setPc a).fb = s.fb := rfl
@[simp] theorem State.setPc_mem (a : Word) : (s.setPc a).mem = s.mem := rfl
@[simp] theorem State.setPc_mode (a : Word) : (s.setPc a).mode = s.mode := rfl
@[simp] theorem State.setPc_params (a : Word) : (s.setPc a).params = s.params := rfl
@[simp] theorem State.setPc_draws (a : Word) : (s.setPc a).draws = s.draws := rfl
@[simp] theorem State.setPc_reg (a : Word) (r : Reg) : (s.setPc a).reg r = s.reg r := rfl
@[simp] theorem State.setPc_stackAt (a : Word) (j : Reg) : (s.setPc a).stackAt j = s.stackAt j := rfl
@[simp] theorem State.setPc_key (a : Word) (q : Reg) : (s.setPc a).key q = s.key q := rfl
@[simp] theorem State.setPc_pixel (a : Word) (y : Fin 32) (z : Fin 64) : (s.setPc a).pixel y z = s.pixel y z := rfl
@[simp] theorem State.setPc_readByte (a : Word) (n : Nat) : (s.setPc a).readByte n = s.readByte n := rfl

/-! ## `setDt` -/

@[simp] theorem State.setDt_v (b : Byte) : (s.setDt b).v = s.v := rfl
@[simp] theorem State.setDt_i (b : Byte) : (s.setDt b).i = s.i := rfl
@[simp] theorem State.setDt_pc (b : Byte) : (s.setDt b).pc = s.pc := rfl
@[simp] theorem State.setDt_sp (b : Byte) : (s.setDt b).sp = s.sp := rfl
@[simp] theorem State.setDt_stack (b : Byte) : (s.setDt b).stack = s.stack := rfl
@[simp] theorem State.setDt_dt (b : Byte) : (s.setDt b).dt = b := rfl
@[simp] theorem State.setDt_st (b : Byte) : (s.setDt b).st = s.st := rfl
@[simp] theorem State.setDt_keypad (b : Byte) : (s.setDt b).keypad = s.keypad := rfl
@[simp] theorem State.setDt_fb (b : Byte) : (s.setDt b).fb = s.fb := rfl
@[simp] theorem State.setDt_mem (b : Byte) : (s.setDt b).mem = s.mem := rfl
@[simp] theorem State.setDt_mode (b : Byte) : (s.setDt b).mode = s.mode := rfl
@[simp] theorem State.setDt_params (b : Byte) : (s.setDt b).params = s.params := rfl
@[simp] theorem State.setDt_draws (b : Byte) : (s.setDt b).draws = s.draws := rfl
@[simp] theorem State.setDt_reg (b : Byte) (r : Reg) : (s.setDt b).reg r = s.reg r := rfl
@[simp] theorem State.setDt_stackAt (b : Byte) (j : Reg) : (s.setDt b).stackAt j = s.stackAt j := rfl
@[simp] theorem State.setDt_key (b : Byte) (q : Reg) : (s.setDt b).key q = s.key q := rfl
@[simp] theorem State.setDt_pixel (b : Byte) (y : Fin 32) (z : Fin 64) : (s.setDt b).pixel y z = s.pixel y z := rfl
@[simp] theorem State.setDt_readByte (b : Byte) (n : Nat) : (s.setDt b).readByte n = s.readByte n := rfl

/-! ## `setSt` -/

@[simp] theorem State.setSt_v (b : Byte) : (s.setSt b).v = s.v := rfl
@[simp] theorem State.setSt_i (b : Byte) : (s.setSt b).i = s.i := rfl
@[simp] theorem State.setSt_pc (b : Byte) : (s.setSt b).pc = s.pc := rfl
@[simp] theorem State.setSt_sp (b : Byte) : (s.setSt b).sp = s.sp := rfl
@[simp] theorem State.setSt_stack (b : Byte) : (s.setSt b).stack = s.stack := rfl
@[simp] theorem State.setSt_dt (b : Byte) : (s.setSt b).dt = s.dt := rfl
@[simp] theorem State.setSt_st (b : Byte) : (s.setSt b).st = b := rfl
@[simp] theorem State.setSt_keypad (b : Byte) : (s.setSt b).keypad = s.keypad := rfl
@[simp] theorem State.setSt_fb (b : Byte) : (s.setSt b).fb = s.fb := rfl
@[simp] theorem State.setSt_mem (b : Byte) : (s.setSt b).mem = s.mem := rfl
@[simp] theorem State.setSt_mode (b : Byte) : (s.setSt b).mode = s.mode := rfl
@[simp] theorem State.setSt_params (b : Byte) : (s.setSt b).params = s.params := rfl
@[simp] theorem State.setSt_draws (b : Byte) : (s.setSt b).draws = s.draws := rfl
@[simp] theorem State.setSt_reg (b : Byte) (r : Reg) : (s.setSt b).reg r = s.reg r := rfl
@[simp] theorem State.setSt_stackAt (b : Byte) (j : Reg) : (s.setSt b).stackAt j = s.stackAt j := rfl
@[simp] theorem State.setSt_key (b : Byte) (q : Reg) : (s.setSt b).key q = s.key q := rfl
@[simp] theorem State.setSt_pixel (b : Byte) (y : Fin 32) (z : Fin 64) : (s.setSt b).pixel y z = s.pixel y z := rfl
@[simp] theorem State.setSt_readByte (b : Byte) (n : Nat) : (s.setSt b).readByte n = s.readByte n := rfl

/-! ## `setMode` -/

@[simp] theorem State.setMode_v (m : RunMode) : (s.setMode m).v = s.v := rfl
@[simp] theorem State.setMode_i (m : RunMode) : (s.setMode m).i = s.i := rfl
@[simp] theorem State.setMode_pc (m : RunMode) : (s.setMode m).pc = s.pc := rfl
@[simp] theorem State.setMode_sp (m : RunMode) : (s.setMode m).sp = s.sp := rfl
@[simp] theorem State.setMode_stack (m : RunMode) : (s.setMode m).stack = s.stack := rfl
@[simp] theorem State.setMode_dt (m : RunMode) : (s.setMode m).dt = s.dt := rfl
@[simp] theorem State.setMode_st (m : RunMode) : (s.setMode m).st = s.st := rfl
@[simp] theorem State.setMode_keypad (m : RunMode) : (s.setMode m).keypad = s.keypad := rfl
@[simp] theorem State.setMode_fb (m : RunMode) : (s.setMode m).fb = s.fb := rfl
@[simp] theorem State.setMode_mem (m : RunMode) : (s.setMode m).mem = s.mem := rfl
@[simp] theorem State.setMode_mode (m : RunMode) : (s.setMode m).mode = m := rfl
@[simp] theorem State.setMode_params (m : RunMode) : (s.setMode m).params = s.params := rfl
@[simp] theorem State.setMode_draws (m : RunMode) : (s.setMode m).draws = s.draws := rfl
@[simp] theorem State.setMode_reg (m : RunMode) (r : Reg) : (s.setMode m).reg r = s.reg r := rfl
@[simp] theorem State.setMode_stackAt (m : RunMode) (j : Reg) : (s.setMode m).stackAt j = s.stackAt j := rfl
@[simp] theorem State.setMode_key (m : RunMode) (q : Reg) : (s.setMode m).key q = s.key q := rfl
@[simp] theorem State.setMode_pixel (m : RunMode) (y : Fin 32) (z : Fin 64) : (s.setMode m).pixel y z = s.pixel y z := rfl
@[simp] theorem State.setMode_readByte (m : RunMode) (n : Nat) : (s.setMode m).readByte n = s.readByte n := rfl

/-! ## `countDraw` -/

@[simp] theorem State.countDraw_v : (s.countDraw).v = s.v := rfl
@[simp] theorem State.countDraw_i : (s.countDraw).i = s.i := rfl
@[simp] theorem State.countDraw_pc : (s.countDraw).pc = s.pc := rfl
@[simp] theorem State.countDraw_sp : (s.countDraw).sp = s.sp := rfl
@[simp] theorem State.countDraw_stack : (s.countDraw).stack = s.stack := rfl
@[simp] theorem State.countDraw_dt : (s.countDraw).dt = s.dt := rfl
@[simp] theorem State.countDraw_st : (s.countDraw).st = s.st := rfl
@[simp] theorem State.countDraw_keypad : (s.countDraw).keypad = s.keypad := rfl
@[simp] theorem State.countDraw_fb : (s.countDraw).fb = s.fb := rfl
@[simp] theorem State.countDraw_mem : (s.countDraw).mem = s.mem := rfl
@[simp] theorem State.countDraw_mode : (s.countDraw).mode = s.mode := rfl
@[simp] theorem State.countDraw_params : (s.countDraw).params = s.params := rfl
@[simp] theorem State.countDraw_draws : (s.countDraw).draws = s.draws + 1 := rfl
@[simp] theorem State.countDraw_reg (r : Reg) : (s.countDraw).reg r = s.reg r := rfl
@[simp] theorem State.countDraw_stackAt (j : Reg) : (s.countDraw).stackAt j = s.stackAt j := rfl
@[simp] theorem State.countDraw_key (q : Reg) : (s.countDraw).key q = s.key q := rfl
@[simp] theorem State.countDraw_pixel (y : Fin 32) (z : Fin 64) : (s.countDraw).pixel y z = s.pixel y z := rfl
@[simp] theorem State.countDraw_readByte (n : Nat) : (s.countDraw).readByte n = s.readByte n := rfl

/-! ## `setKey` -/

@[simp] theorem State.setKey_v (k : Reg) (b : Bool) : (s.setKey k b).v = s.v := rfl
@[simp] theorem State.setKey_i (k : Reg) (b : Bool) : (s.setKey k b).i = s.i := rfl
@[simp] theorem State.setKey_pc (k : Reg) (b : Bool) : (s.setKey k b).pc = s.pc := rfl
@[simp] theorem State.setKey_sp (k : Reg) (b : Bool) : (s.setKey k b).sp = s.sp := rfl
@[simp] theorem State.setKey_stack (k : Reg) (b : Bool) : (s.setKey k b).stack = s.stack := rfl
@[simp] theorem State.setKey_dt (k : Reg) (b : Bool) : (s.setKey k b).dt = s.dt := rfl
@[simp] theorem State.setKey_st (k : Reg) (b : Bool) : (s.setKey k b).st = s.st := rfl
@[simp] theorem State.setKey_fb (k : Reg) (b : Bool) : (s.setKey k b).fb = s.fb := rfl
@[simp] theorem State.setKey_mem (k : Reg) (b : Bool) : (s.setKey k b).mem = s.mem := rfl
@[simp] theorem State.setKey_mode (k : Reg) (b : Bool) : (s.setKey k b).mode = s.mode := rfl
@[simp] theorem State.setKey_params (k : Reg) (b : Bool) : (s.setKey k b).params = s.params := rfl
@[simp] theorem State.setKey_draws (k : Reg) (b : Bool) : (s.setKey k b).draws = s.draws := rfl
@[simp] theorem State.setKey_reg (k : Reg) (b : Bool) (r : Reg) : (s.setKey k b).reg r = s.reg r := rfl
@[simp] theorem State.setKey_stackAt (k : Reg) (b : Bool) (j : Reg) : (s.setKey k b).stackAt j = s.stackAt j := rfl
@[simp] theorem State.setKey_pixel (k : Reg) (b : Bool) (y : Fin 32) (z : Fin 64) : (s.setKey k b).pixel y z = s.pixel y z := rfl
@[simp] theorem State.setKey_readByte (k : Reg) (b : Bool) (n : Nat) : (s.setKey k b).readByte n = s.readByte n := rfl

/-! ## `setFb` -/

@[simp] theorem State.setFb_v (fb : FrameBuffer) : (s.setFb fb).v = s.v := rfl
@[simp] theorem State.setFb_i (fb : FrameBuffer) : (s.setFb fb).i = s.i := rfl
@[simp] theorem State.setFb_pc (fb : FrameBuffer) : (s.setFb fb).pc = s.pc := rfl
@[simp] theorem State.setFb_sp (fb : FrameBuffer) : (s.setFb fb).sp = s.sp := rfl
@[simp] theorem State.setFb_stack (fb : FrameBuffer) : (s.setFb fb).stack = s.stack := rfl
@[simp] theorem State.setFb_dt (fb : FrameBuffer) : (s.setFb fb).dt = s.dt := rfl
@[simp] theorem State.setFb_st (fb : FrameBuffer) : (s.setFb fb).st = s.st := rfl
@[simp] theorem State.setFb_keypad (fb : FrameBuffer) : (s.setFb fb).keypad = s.keypad := rfl
@[simp] theorem State.setFb_fb (fb : FrameBuffer) : (s.setFb fb).fb = fb := rfl
@[simp] theorem State.setFb_mem (fb : FrameBuffer) : (s.setFb fb).mem = s.mem := rfl
@[simp] theorem State.setFb_mode (fb : FrameBuffer) : (s.setFb fb).mode = s.mode := rfl
@[simp] theorem State.setFb_params (fb : FrameBuffer) : (s.setFb fb).params = s.params := rfl
@[simp] theorem State.setFb_draws (fb : FrameBuffer) : (s.setFb fb).draws = s.draws := rfl
@[simp] theorem State.setFb_reg (fb : FrameBuffer) (r : Reg) : (s.setFb fb).reg r = s.reg r := rfl
@[simp] theorem State.setFb_stackAt (fb : FrameBuffer) (j : Reg) : (s.setFb fb).stackAt j = s.stackAt j := rfl
@[simp] theorem State.setFb_key (fb : FrameBuffer) (q : Reg) : (s.setFb fb).key q = s.key q := rfl
@[simp] theorem State.setFb_pixel (fb : FrameBuffer) (y : Fin 32) (z : Fin 64) : (s.setFb fb).pixel y z = FrameBuffer.cell fb y z := rfl
@[simp] theorem State.setFb_readByte (fb : FrameBuffer) (n : Nat) : (s.setFb fb).readByte n = s.readByte n := rfl

/-! ## `writeByte` -/

@[simp] theorem State.writeByte_v (a : Nat) (b : Byte) : (s.writeByte a b).v = s.v := rfl
@[simp] theorem State.writeByte_i (a : Nat) (b : Byte) : (s.writeByte a b).i = s.i := rfl
@[simp] theorem State.writeByte_pc (a : Nat) (b : Byte) : (s.writeByte a b).pc = s.pc := rfl
@[simp] theorem State.writeByte_sp (a : Nat) (b : Byte) : (s.writeByte a b).sp = s.sp := rfl
@[simp] theorem State.writeByte_stack (a : Nat) (b : Byte) : (s.writeByte a b).stack = s.stack := rfl
@[simp] theorem State.writeByte_dt (a : Nat) (b : Byte) : (s.writeByte a b).dt = s.dt := rfl
@[simp] theorem State.writeByte_st (a : Nat) (b : Byte) : (s.writeByte a b).st = s.st := rfl
@[simp] theorem State.writeByte_keypad (a : Nat) (b : Byte) : (s.writeByte a b).keypad = s.keypad := rfl
@[simp] theorem State.writeByte_fb (a : Nat) (b : Byte) : (s.writeByte a b).fb = s.fb := rfl
@[simp] theorem State.writeByte_mode (a : Nat) (b : Byte) : (s.writeByte a b).mode = s.mode := rfl
@[simp] theorem State.writeByte_params (a : Nat) (b : Byte) : (s.writeByte a b).params = s.params := rfl
@[simp] theorem State.writeByte_draws (a : Nat) (b : Byte) : (s.writeByte a b).draws = s.draws := rfl
@[simp] theorem State.writeByte_reg (a : Nat) (b : Byte) (r : Reg) : (s.writeByte a b).reg r = s.reg r := rfl
@[simp] theorem State.writeByte_stackAt (a : Nat) (b : Byte) (j : Reg) : (s.writeByte a b).stackAt j = s.stackAt j := rfl
@[simp] theorem State.writeByte_key (a : Nat) (b : Byte) (q : Reg) : (s.writeByte a b).key q = s.key q := rfl
@[simp] theorem State.writeByte_pixel (a : Nat) (b : Byte) (y : Fin 32) (z : Fin 64) : (s.writeByte a b).pixel y z = s.pixel y z := rfl

/-! ## Fault entry and the fetch advance -/

@[simp] theorem State.enterFault_eq (k : FaultKind) (a : Word) : s.enterFault k a = s.setMode (.faulted ⟨k, a⟩) := rfl
@[simp] theorem State.advancePc_eq : s.advancePc = s.setPc (s.pc + 2) := rfl

end Sys2Proof.Machine
end

