-- ==== Sys2Proof/Laws/Memory.lean ====
section
/-!
SUPPORT. Memory: a read after a write, and that every memory operation keeps the canonical form.
-/

namespace Sys2Proof.Machine

variable {font : Vector Byte 80} {m : Memory}

/-! ## Lookup after insert and erase -/

theorem Memory.lookup_insert (m : Memory) (a : Nat) (b : Byte) (c : Nat) :
    Memory.lookup (Memory.insert m a b) c = if c = a then some b else Memory.lookup m c := by
  induction m with
  | nil => simp [Memory.insert, Memory.lookup]
  | cons e m ih =>
    obtain ⟨k, d⟩ := e
    by_cases h1 : a < k
    · simp [Memory.insert, Memory.lookup, h1]
    · by_cases h2 : a = k
      · subst h2; by_cases hc : c = a <;> simp [Memory.insert, Memory.lookup, hc]
      · by_cases hc : c = k
        · subst hc; simp [Memory.insert, Memory.lookup, h1, h2, Ne.symm h2]
        · simp [Memory.insert, Memory.lookup, h1, h2, hc, ih]

theorem Memory.lookup_erase (m : Memory) (a c : Nat) :
    Memory.lookup (Memory.erase m a) c = if c = a then none else Memory.lookup m c := by
  induction m with
  | nil => simp [Memory.erase, Memory.lookup]
  | cons e m ih =>
    obtain ⟨k, d⟩ := e
    by_cases h : a = k
    · subst h
      simp only [Memory.erase, if_true, ih, Memory.lookup]
      by_cases hc : c = a <;> simp [hc]
    · by_cases hc : c = k
      · subst hc; simp [Memory.erase, Memory.lookup, h, Ne.symm h]
      · simp [Memory.erase, Memory.lookup, h, hc, ih]

/-! ## Membership and order -/

theorem Memory.mem_insert {a : Nat} {b : Byte} {e : Host.Cell} (h : e ∈ Memory.insert m a b) : e = (a, b) ∨ e ∈ m := by
  induction m with
  | nil => simpa [Memory.insert] using h
  | cons c m ih =>
    obtain ⟨k, d⟩ := c
    by_cases h1 : a < k
    · simpa [Memory.insert, h1] using h
    · by_cases h2 : a = k
      · simp only [Memory.insert, h2, if_false, if_true, Nat.lt_irrefl, List.mem_cons] at h ⊢
        tauto
      · simp only [Memory.insert, h1, h2, if_false, List.mem_cons] at h ⊢
        rcases h with h | h
        · exact .inr (.inl h)
        · exact (ih h).imp id .inr

theorem Memory.mem_of_mem_erase {a : Nat} {e : Host.Cell} (h : e ∈ Memory.erase m a) : e ∈ m := by
  induction m with
  | nil => simp [Memory.erase] at h
  | cons c m ih =>
    obtain ⟨k, d⟩ := c
    by_cases h1 : a = k
    · simp only [Memory.erase, h1, if_true] at h ih; exact List.mem_cons_of_mem _ (ih h)
    · simp only [Memory.erase, h1, if_false, List.mem_cons] at h ⊢
      exact h.imp id ih

theorem Memory.pairwise_insert (hs : m.Pairwise (fun c d => c.1 < d.1)) (a : Nat) (b : Byte) :
    (Memory.insert m a b).Pairwise (fun c d => c.1 < d.1) := by
  induction m with
  | nil => simp [Memory.insert]
  | cons c m ih =>
    obtain ⟨k, d⟩ := c
    obtain ⟨hk, hm⟩ := List.pairwise_cons.1 hs
    by_cases h1 : a < k
    · simp only [Memory.insert, h1, if_true]
      refine List.pairwise_cons.2 ⟨fun e he => ?_, hs⟩
      rcases List.mem_cons.1 he with rfl | he
      · exact h1
      · exact Nat.lt_trans h1 (hk e he)
    · by_cases h2 : a = k
      · subst h2
        simp only [Memory.insert, Nat.lt_irrefl, if_false, if_true]
        exact List.pairwise_cons.2 ⟨hk, hm⟩
      · simp only [Memory.insert, h1, h2, if_false]
        refine List.pairwise_cons.2 ⟨fun e he => ?_, ih hm⟩
        rcases Memory.mem_insert he with rfl | he
        · show k < a; omega
        · exact hk e he

theorem Memory.pairwise_erase (hs : m.Pairwise (fun c d => c.1 < d.1)) (a : Nat) :
    (Memory.erase m a).Pairwise (fun c d => c.1 < d.1) := by
  induction m with
  | nil => simp [Memory.erase]
  | cons c m ih =>
    obtain ⟨k, d⟩ := c
    obtain ⟨hk, hm⟩ := List.pairwise_cons.1 hs
    by_cases h : a = k
    · simpa [Memory.erase, h] using ih hm
    · simp only [Memory.erase, h, if_false]
      exact List.pairwise_cons.2 ⟨fun e he => hk e (Memory.mem_of_mem_erase he), ih hm⟩

/-! ## Reads, writes and the canonical form -/

theorem Memory.wf_nil (font : Vector Byte 80) : Memory.wf font [] := by simp [Memory.wf]

/-- A write changes what its address reads as, and nothing else. -/
theorem Memory.read_write (font : Vector Byte 80) (m : Memory) (a : Nat) (b : Byte) (c : Nat) :
    Memory.read font (Memory.write font m a b) c = if c = a then b else Memory.read font m c := by
  by_cases hb : b = resetByte font a
  · by_cases hc : c = a <;> simp [Memory.read, Memory.write, hb, Memory.lookup_erase, hc]
  · by_cases hc : c = a <;> simp [Memory.read, Memory.write, hb, Memory.lookup_insert, hc]

/-- A write inside the address space keeps the canonical form. -/
theorem Memory.write_wf (hm : Memory.wf font m) {a : Nat} (ha : a < 0x1000) (b : Byte) :
    Memory.wf font (Memory.write font m a b) := by
  by_cases hb : b = resetByte font a
  · simp only [Memory.write, hb, if_true]
    exact ⟨Memory.pairwise_erase hm.1 a, fun e he => hm.2 e (Memory.mem_of_mem_erase he)⟩
  · simp only [Memory.write, hb, if_false]
    refine ⟨Memory.pairwise_insert hm.1 a b, fun e he => ?_⟩
    rcases Memory.mem_insert he with rfl | he
    · exact ⟨ha, hb⟩
    · exact hm.2 e he

theorem Memory.lookup_mem {a : Nat} {b : Byte} (h : Memory.lookup m a = some b) : (a, b) ∈ m := by
  induction m with
  | nil => simp [Memory.lookup] at h
  | cons c m ih =>
    obtain ⟨k, d⟩ := c
    by_cases hk : a = k
    · simp only [Memory.lookup, hk, if_true, Option.some.injEq] at h; simp [hk, h]
    · simp only [Memory.lookup, hk, if_false] at h; exact List.mem_cons_of_mem _ (ih h)

theorem State.writeByte_readByte (s : State) (a : Nat) (b : Byte) (c : Nat) :
    (s.writeByte a b).readByte c = if c = a then b else s.readByte c := Memory.read_write s.params.font s.mem a b c

theorem State.writeByte_wf {s : State} (hs : Memory.wf s.params.font s.mem) {a : Nat} (ha : a < 0x1000) (b : Byte) :
    Memory.wf (s.writeByte a b).params.font (s.writeByte a b).mem := Memory.write_wf hs ha b

/-! ## Storing a run of bytes -/

/-- Storing bytes changes memory and nothing else. -/
theorem State.storeBytes_eq (bs : List Byte) (s : State) (a : Nat) :
    s.storeBytes a bs = { s with mem := (s.storeBytes a bs).mem } := by
  induction bs generalizing s a with
  | nil => rfl
  | cons b bs ih => simp only [State.storeBytes]; rw [ih]; rfl

section
variable (bs : List Byte) (s : State) (a : Nat)

@[simp] theorem State.storeBytes_v : (s.storeBytes a bs).v = s.v := by rw [State.storeBytes_eq]
@[simp] theorem State.storeBytes_i : (s.storeBytes a bs).i = s.i := by rw [State.storeBytes_eq]
@[simp] theorem State.storeBytes_pc : (s.storeBytes a bs).pc = s.pc := by rw [State.storeBytes_eq]
@[simp] theorem State.storeBytes_sp : (s.storeBytes a bs).sp = s.sp := by rw [State.storeBytes_eq]
@[simp] theorem State.storeBytes_stack : (s.storeBytes a bs).stack = s.stack := by rw [State.storeBytes_eq]
@[simp] theorem State.storeBytes_dt : (s.storeBytes a bs).dt = s.dt := by rw [State.storeBytes_eq]
@[simp] theorem State.storeBytes_st : (s.storeBytes a bs).st = s.st := by rw [State.storeBytes_eq]
@[simp] theorem State.storeBytes_keypad : (s.storeBytes a bs).keypad = s.keypad := by rw [State.storeBytes_eq]
@[simp] theorem State.storeBytes_fb : (s.storeBytes a bs).fb = s.fb := by rw [State.storeBytes_eq]
@[simp] theorem State.storeBytes_mode : (s.storeBytes a bs).mode = s.mode := by rw [State.storeBytes_eq]
@[simp] theorem State.storeBytes_params : (s.storeBytes a bs).params = s.params := by rw [State.storeBytes_eq]
@[simp] theorem State.storeBytes_draws : (s.storeBytes a bs).draws = s.draws := by rw [State.storeBytes_eq]
@[simp] theorem State.storeBytes_reg (r : Reg) : (s.storeBytes a bs).reg r = s.reg r := by rw [State.storeBytes_eq]; rfl
@[simp] theorem State.storeBytes_stackAt (j : Reg) : (s.storeBytes a bs).stackAt j = s.stackAt j := by
  rw [State.storeBytes_eq]; rfl
@[simp] theorem State.storeBytes_key (k : Reg) : (s.storeBytes a bs).key k = s.key k := by rw [State.storeBytes_eq]; rfl
@[simp] theorem State.storeBytes_pixel (y : Fin 32) (x : Fin 64) : (s.storeBytes a bs).pixel y x = s.pixel y x := by
  rw [State.storeBytes_eq]; rfl
end

/-- Storing bytes inside the address space keeps the canonical form. -/
theorem State.storeBytes_wf {s : State} (hs : Memory.wf s.params.font s.mem) {a : Nat} (bs : List Byte)
    (ha : a + bs.length ≤ 0x1000) : Memory.wf (s.storeBytes a bs).params.font (s.storeBytes a bs).mem := by
  induction bs generalizing s a with
  | nil => exact hs
  | cons b bs ih =>
    simp only [List.length_cons] at ha
    exact ih (State.writeByte_wf hs (by omega) b) (by omega)

/-- After storing bytes from `a` on, the stored addresses hold them and every other address reads as before. -/
theorem State.storeBytes_readByte (s : State) (a : Nat) (bs : List Byte) (c : Nat) :
    (s.storeBytes a bs).readByte c =
      if a ≤ c ∧ c < a + bs.length then bs.getD (c - a) 0 else s.readByte c := by
  induction bs generalizing s a with
  | nil => simp [State.storeBytes]
  | cons b bs ih =>
    rw [State.storeBytes, ih, State.writeByte_readByte, List.length_cons]
    by_cases h1 : a + 1 ≤ c ∧ c < a + 1 + bs.length
    · have h2 : a ≤ c ∧ c < a + (bs.length + 1) := by omega
      obtain ⟨k, rfl⟩ : ∃ k, c = a + 1 + k := ⟨c - (a + 1), by omega⟩
      rw [if_pos h1, if_pos h2, show a + 1 + k - (a + 1) = k by omega, show a + 1 + k - a = k + 1 by omega]
      rfl
    · rw [if_neg h1]
      by_cases h3 : c = a
      · subst h3; simp
      · rw [if_neg h3, if_neg (by omega)]

end Sys2Proof.Machine
end

