-- ==== Sys2Proof/Laws/Ops.lean ====
section
/-!
SUPPORT. One lemma for each shared operation, saying what it can do: register files, stack, keypad, framebuffer cells, range
checks, raising, skipping, polling, the two writes of a flag-writing instruction.
-/

namespace Sys2Proof.Machine

/-! ## Register files -/

theorem State.setReg_reg (s : State) (x : Reg) (b : Byte) (r : Reg) :
    (s.setReg x b).reg r = if r = x then b else s.reg r := by
  simp only [State.reg, State.setReg, Vector.get_eq_getElem, Vector.getElem_set, Fin.ext_iff, eq_comm]

@[simp] theorem State.setReg_reg_same (s : State) (x : Reg) (b : Byte) : (s.setReg x b).reg x = b := by
  simp [State.setReg_reg]

theorem State.setReg_reg_ne (s : State) {x r : Reg} (h : r ≠ x) (b : Byte) : (s.setReg x b).reg r = s.reg r := by
  simp [State.setReg_reg, h]

@[simp] theorem State.setRegs_reg (s : State) (f : Reg → Byte) (r : Reg) : (s.setRegs f).reg r = f r := by
  simp [State.reg, State.setRegs, Vector.get_eq_getElem]

theorem State.setKey_key (s : State) (k : Reg) (b : Bool) (q : Reg) :
    (s.setKey k b).key q = if q = k then b else s.key q := by
  simp only [State.key, State.setKey, Vector.get_eq_getElem, Vector.getElem_set, Fin.ext_iff, eq_comm]

theorem FrameBuffer.cell_setCell (fb : FrameBuffer) (y : Fin 32) (x : Fin 64) (b : Bool) (y' : Fin 32) (x' : Fin 64) :
    FrameBuffer.cell (FrameBuffer.setCell fb y x b) y' x' = if y' = y ∧ x' = x then b else FrameBuffer.cell fb y' x' := by
  by_cases hy : y' = y
  · subst hy
    by_cases hx : x' = x
    · subst hx; simp [FrameBuffer.cell, FrameBuffer.setCell, Vector.get_eq_getElem]
    · have : (x : Nat) ≠ x' := fun h => hx (Fin.ext h.symm)
      simp [FrameBuffer.cell, FrameBuffer.setCell, Vector.get_eq_getElem, hx, this]
  · have : (y : Nat) ≠ y' := fun h => hy (Fin.ext h.symm)
    simp [FrameBuffer.cell, FrameBuffer.setCell, Vector.get_eq_getElem, hy, this]

@[simp] theorem FrameBuffer.cell_clear (y : Fin 32) (x : Fin 64) : FrameBuffer.cell FrameBuffer.clear y x = false := by
  simp [FrameBuffer.cell, FrameBuffer.clear, Vector.get_eq_getElem]

/-! ## The call stack -/

/-- A push succeeds exactly when fewer than 16 entries are in use, and then writes the entry at `sp` and moves `sp` up. -/
theorem State.push_some {s t : State} {a : Word} (h : s.push a = some t) :
    s.sp.val < 16 ∧ t.sp.val = s.sp.val + 1 ∧
      (∀ j : Reg, t.stackAt j = if j.val = s.sp.val then a else s.stackAt j) ∧
      t = { s with stack := t.stack, sp := t.sp } := by
  unfold State.push at h
  split at h
  · next hlt =>
    obtain rfl := Option.some.inj h
    refine ⟨hlt, rfl, fun j => ?_, rfl⟩
    simp only [State.stackAt, Vector.get_eq_getElem, Vector.getElem_set, eq_comm]
  · cases h

theorem State.push_none {s : State} {a : Word} : s.push a = none ↔ s.sp = 16 := by
  unfold State.push
  split
  · next h => simp only [reduceCtorEq, false_iff]; rintro h'; rw [h'] at h; exact absurd h (by decide)
  · next h => simp only [true_iff]; have := s.sp.isLt; exact Fin.ext (by simp; omega)

/-- A pop succeeds exactly when an entry is in use, and then moves `sp` down and gives the entry there. -/
theorem State.pop_some {s t : State} {a : Word} (h : s.pop = some (a, t)) :
    ∃ j : Reg, s.sp.val = j.val + 1 ∧ a = s.stackAt j ∧ t.sp.val = j.val ∧ t = { s with sp := t.sp } := by
  unfold State.pop at h
  split at h
  · cases h
  · next j hj he =>
    simp only [Option.some.injEq, Prod.mk.injEq] at h
    obtain ⟨rfl, rfl⟩ := h
    exact ⟨⟨j, Nat.lt_of_succ_lt_succ hj⟩, by rw [he], rfl, rfl, rfl⟩

theorem State.pop_none {s : State} : s.pop = none ↔ s.sp = 0 := by
  unfold State.pop
  split
  · next he => simp [he]
  · next j hj he => simp [he, Fin.ext_iff]

/-! ## Checks -/

/-- `CheckRange(a, n)` in closed form (00_scope.md R15; the closed form is 42_display.md R142's). -/
theorem checkRange_eq (a n : Nat) :
    checkRange a n = if 0 < n ∧ 0xFFF < a + n - 1 then some (.memoryOutOfRange (max a 0x1000)) else none := by
  suffices h : ((List.range n).map (a + ·)).find? (0xFFF < ·) = if 0 < n ∧ 0xFFF < a + n - 1 then some (max a 0x1000) else none by
    rw [checkRange, h]; split <;> rfl
  induction n with
  | zero => rfl
  | succ n ih =>
    rw [List.range_succ, List.map_append, List.find?_append, ih]
    by_cases h1 : 0 < n ∧ 0xFFF < a + n - 1
    · rw [if_pos h1, if_pos (by omega)]; rfl
    · rw [if_neg h1]
      by_cases h2 : 0xFFF < a + n
      · rw [if_pos (by omega)]
        have h3 : max a 0x1000 = a + n := by omega
        simp [h2, h3]
      · rw [if_neg (by omega)]; simp; omega

/-- `CheckWritable(a, n)` in closed form. -/
theorem State.checkWritable_eq (s : State) (a n : Nat) :
    s.checkWritable a n = if s.params.protectLowMemory = true ∧ 0 < n ∧ a < 0x200 then some (.protectedWrite a) else none := by
  unfold State.checkWritable
  cases n with
  | zero => simp
  | succ n =>
    by_cases h : a < 0x200
    · by_cases hp : s.params.protectLowMemory = true <;> simp [hp, h, List.range_succ_eq_map]
    · have hn : ((List.range (n + 1)).map (a + ·)).find? (· < 0x200) = none := by
        rw [List.find?_eq_none]; intro c hc; obtain ⟨k, -, rfl⟩ := List.mem_map.1 hc; simp; omega
      rw [hn]; simp; intro _; omega

/-- A check that passes runs the rest. -/
@[simp] theorem State.checked_none (s : State) (rest : Answer) : s.checked none rest = rest := rfl

/-- A check that fails raises what it found. -/
@[simp] theorem State.checked_some (s : State) (k : FaultKind) (rest : Answer) : s.checked (some k) rest = s.raise k := rfl

/-! ## Skips, keys and the poll -/

@[simp] theorem State.skipIf_true (s : State) : s.skipIf true = s.setPc (s.pc + 2) := rfl
@[simp] theorem State.skipIf_false (s : State) : s.skipIf false = s := rfl

theorem State.skipIf_eq (s : State) (c : Bool) : s.skipIf c = s.setPc (if c then s.pc + 2 else s.pc) := by
  cases c <;> rfl

theorem keyOperand_eq_none {b : Byte} : keyOperand b = none ↔ 15 < b.toNat := by
  unfold keyOperand; split <;> simp <;> omega

theorem keyOperand_eq_some {b : Byte} {k : Reg} : keyOperand b = some k ↔ b.toNat = k.val := by
  unfold keyOperand
  split
  · simp [Fin.ext_iff]
  · have := k.isLt; simp; omega

/-- The poll's key is the least pressed one. -/
theorem State.lowestPressedKey_some {s : State} {k : Reg} (h : s.lowestPressedKey = some k) :
    s.key k = true ∧ ∀ j < k, s.key j = false := by
  unfold State.lowestPressedKey at h
  obtain ⟨hk, as, bs, hl, hn⟩ := List.find?_eq_some_iff_append.1 h
  refine ⟨hk, fun j hj => ?_⟩
  have hp : (List.finRange 16).Pairwise (· < ·) := List.pairwise_lt_finRange 16
  have hmem : j ∈ as ++ k :: bs := hl ▸ List.mem_finRange j
  rw [hl] at hp
  rcases List.mem_append.1 hmem with hj' | hj'
  · simpa using hn j hj'
  · rcases List.mem_cons.1 hj' with rfl | hj'
    · exact absurd hj (lt_irrefl _)
    · exact absurd hj (not_lt_of_gt ((List.pairwise_cons.1 (List.pairwise_append.1 hp).2.1).1 j hj'))

theorem State.lowestPressedKey_none {s : State} : s.lowestPressedKey = none ↔ ∀ k, s.key k = false := by
  simp [State.lowestPressedKey, List.find?_eq_none]

/-- What a poll can do (40_pipeline.md R102). -/
theorem State.poll_cases (s : State) (x : Reg) :
    (∃ k, s.key k = true ∧ (∀ j < k, s.key j = false) ∧
      s.poll x = (s.setReg x (BitVec.ofNat 8 k.val)).setMode .running) ∨
    ((∀ k, s.key k = false) ∧ s.poll x = s) := by
  unfold State.poll
  split
  · next k h => exact .inl ⟨k, (State.lowestPressedKey_some h).1, (State.lowestPressedKey_some h).2, rfl⟩
  · next h => exact .inr ⟨State.lowestPressedKey_none.1 h, rfl⟩

/-! ## The two writes of a flag-writing instruction -/

/-- `writeback` changes registers and nothing else. -/
theorem State.writeback_eq (s : State) (x : Reg) (res f : Byte) :
    s.writeback x res f = { s with v := (s.writeback x res f).v } := by
  unfold State.writeback; split <;> rfl

/-- What the registers hold after `writeback` (43_alu.md R151). -/
theorem State.writeback_reg (s : State) (x : Reg) (res f : Byte) (r : Reg) :
    (s.writeback x res f).reg r =
      if r = regF ∧ (x ≠ regF ∨ s.params.vfOrder = .flagLast) then f else if r = x then res else s.reg r := by
  unfold State.writeback
  by_cases hr : r = regF <;> by_cases hx : x = regF <;> cases s.params.vfOrder <;> simp_all [State.setReg_reg]
  exact fun h => absurd h.symm hx

section
variable (s : State) (x : Reg) (res f : Byte)

@[simp] theorem State.writeback_i : (s.writeback x res f).i = s.i := by rw [State.writeback_eq]
@[simp] theorem State.writeback_pc : (s.writeback x res f).pc = s.pc := by rw [State.writeback_eq]
@[simp] theorem State.writeback_sp : (s.writeback x res f).sp = s.sp := by rw [State.writeback_eq]
@[simp] theorem State.writeback_stack : (s.writeback x res f).stack = s.stack := by rw [State.writeback_eq]
@[simp] theorem State.writeback_dt : (s.writeback x res f).dt = s.dt := by rw [State.writeback_eq]
@[simp] theorem State.writeback_st : (s.writeback x res f).st = s.st := by rw [State.writeback_eq]
@[simp] theorem State.writeback_keypad : (s.writeback x res f).keypad = s.keypad := by rw [State.writeback_eq]
@[simp] theorem State.writeback_fb : (s.writeback x res f).fb = s.fb := by rw [State.writeback_eq]
@[simp] theorem State.writeback_mem : (s.writeback x res f).mem = s.mem := by rw [State.writeback_eq]
@[simp] theorem State.writeback_mode : (s.writeback x res f).mode = s.mode := by rw [State.writeback_eq]
@[simp] theorem State.writeback_params : (s.writeback x res f).params = s.params := by rw [State.writeback_eq]
@[simp] theorem State.writeback_draws : (s.writeback x res f).draws = s.draws := by rw [State.writeback_eq]
@[simp] theorem State.writeback_stackAt (j : Reg) : (s.writeback x res f).stackAt j = s.stackAt j := by
  rw [State.writeback_eq]; rfl
@[simp] theorem State.writeback_key (k : Reg) : (s.writeback x res f).key k = s.key k := by rw [State.writeback_eq]; rfl
@[simp] theorem State.writeback_pixel (y : Fin 32) (z : Fin 64) : (s.writeback x res f).pixel y z = s.pixel y z := by
  rw [State.writeback_eq]; rfl
@[simp] theorem State.writeback_readByte (a : Nat) : (s.writeback x res f).readByte a = s.readByte a := by
  rw [State.writeback_eq]; rfl
end

/-! ## Block transfers -/

/-- What a store through `I` can do (44_index_memory.md R173, R174). -/
theorem State.storeAtI_eq (s : State) (bytes : List Byte) (hb : 0 < bytes.length) :
    s.storeAtI bytes =
      if 0xFFF < s.dataAddr 0 + bytes.length - 1 then s.raise (.memoryOutOfRange (max (s.dataAddr 0) 0x1000))
      else if s.params.protectLowMemory = true ∧ s.dataAddr 0 < 0x200 then s.raise (.protectedWrite (s.dataAddr 0))
      else .next (s.storeBytes (s.dataAddr 0) bytes) := by
  rw [State.storeAtI, checkRange_eq, State.checkWritable_eq]
  by_cases h1 : 0xFFF < s.dataAddr 0 + bytes.length - 1
  · rw [if_pos ⟨hb, h1⟩, if_pos h1]; rfl
  · rw [if_neg (fun h => h1 h.2), if_neg h1]
    by_cases h2 : s.params.protectLowMemory = true ∧ s.dataAddr 0 < 0x200
    · rw [if_pos ⟨h2.1, hb, h2.2⟩, if_pos h2]; rfl
    · rw [if_neg (fun h => h2 ⟨h.1, h.2.2⟩), if_neg h2]; rfl

@[simp] theorem State.regsUpTo_length (s : State) (x : Reg) : (s.regsUpTo x).length = x.val + 1 := by simp [State.regsUpTo]

theorem State.regsUpTo_getD (s : State) {x r : Reg} (h : r ≤ x) : (s.regsUpTo x).getD r.val 0 = s.reg r := by
  have hr : r.val < x.val + 1 := Nat.lt_succ_of_le h
  simp [State.regsUpTo, hr]

@[simp] theorem bcdDigits_length (b : Byte) : (bcdDigits b).length = 3 := rfl

end Sys2Proof.Machine
end

