-- ==== Sys2Proof/Laws/Display.lean ====
section
/-!
SUPPORT. What a draw does to the framebuffer and to `collide` (42_display.md R140, R142, R143): the loops in closed form.
-/

namespace Sys2Proof.Machine

/-- Eight neighbouring sprite columns land on eight different framebuffer columns. -/
theorem spriteX_inj (x0 : Byte) {c d : Nat} (hc : c < 8) (hd : d < 8) (h : spriteX x0 c = spriteX x0 d) : c = d := by
  have := congrArg Fin.val h; simp [spriteX] at this; omega

/-- Up to 32 neighbouring sprite rows land on different framebuffer rows. -/
theorem spriteY_inj (y0 : Byte) {r q : Nat} (hr : r < 32) (hq : q < 32) (h : spriteY y0 r = spriteY y0 q) : r = q := by
  have := congrArg Fin.val h; simp [spriteY] at this; omega

theorem flipCell_cell (d : Drawing) (y : Fin 32) (x : Fin 64) (y' : Fin 32) (x' : Fin 64) :
    FrameBuffer.cell (flipCell d y x).1 y' x' =
      if y' = y ∧ x' = x then !FrameBuffer.cell d.1 y x else FrameBuffer.cell d.1 y' x' :=
  FrameBuffer.cell_setCell ..

/-- The first `m` columns of a sprite byte. -/
def drawCols (d : Drawing) (y : Fin 32) (x0 b : Byte) (m : Nat) : Drawing :=
  (List.range m).foldl (fun e col => if spriteBit b col then flipCell e y (spriteX x0 col) else e) d

theorem drawCols_succ (d : Drawing) (y : Fin 32) (x0 b : Byte) (m : Nat) :
    drawCols d y x0 b (m + 1) =
      if spriteBit b m then flipCell (drawCols d y x0 b m) y (spriteX x0 m) else drawCols d y x0 b m := by
  simp [drawCols, List.range_succ]

/-- A cell that no set bit of the byte lands on keeps its value. -/
theorem drawCols_cell_other {d : Drawing} {y : Fin 32} {x0 b : Byte} {m : Nat} {y' : Fin 32} {x' : Fin 64}
    (h : ∀ col < m, spriteBit b col = true → ¬ (y' = y ∧ x' = spriteX x0 col)) :
    FrameBuffer.cell (drawCols d y x0 b m).1 y' x' = FrameBuffer.cell d.1 y' x' := by
  induction m with
  | zero => rfl
  | succ m ih =>
    have ih := ih fun col hc => h col (Nat.lt_succ_of_lt hc)
    rw [drawCols_succ]
    split
    · next hb => rw [flipCell_cell, if_neg (h m (Nat.lt_succ_self m) hb), ih]
    · exact ih

/-- A cell that a set bit of the byte lands on is inverted. -/
theorem drawCols_cell_hit {d : Drawing} {y : Fin 32} {x0 b : Byte} {m col : Nat} (hm : m ≤ 8) (hc : col < m)
    (hb : spriteBit b col = true) :
    FrameBuffer.cell (drawCols d y x0 b m).1 y (spriteX x0 col) = !FrameBuffer.cell d.1 y (spriteX x0 col) := by
  induction m with
  | zero => omega
  | succ m ih =>
    rw [drawCols_succ]
    by_cases hcm : col = m
    · subst hcm
      rw [if_pos hb, flipCell_cell, if_pos ⟨rfl, rfl⟩, drawCols_cell_other]
      exact fun c hc' _ h => Nat.ne_of_gt hc' (spriteX_inj x0 (by omega) (by omega) h.2)
    · have ih := ih (by omega) (by omega)
      split
      · rw [flipCell_cell, if_neg, ih]
        exact fun h => hcm (spriteX_inj x0 (by omega) (by omega) h.2)
      · exact ih

theorem drawCols_collide {d : Drawing} {y : Fin 32} {x0 b : Byte} {m : Nat} (hm : m ≤ 8) :
    (drawCols d y x0 b m).2 = true ↔
      d.2 = true ∨ ∃ col < m, spriteBit b col = true ∧ FrameBuffer.cell d.1 y (spriteX x0 col) = true := by
  induction m with
  | zero => simp [drawCols]
  | succ m ih =>
    have ih := ih (by omega)
    have hlast : FrameBuffer.cell (drawCols d y x0 b m).1 y (spriteX x0 m) = FrameBuffer.cell d.1 y (spriteX x0 m) :=
      drawCols_cell_other fun c hc _ h => Nat.ne_of_gt hc (spriteX_inj x0 (by omega) (by omega) h.2)
    rw [drawCols_succ]
    constructor
    · intro h
      split at h
      · next hb =>
        simp only [flipCell, Bool.or_eq_true, hlast] at h
        rcases h with h | h
        · rcases ih.1 h with h | ⟨c, hc, h⟩
          · exact .inl h
          · exact .inr ⟨c, by omega, h⟩
        · exact .inr ⟨m, by omega, hb, h⟩
      · rcases ih.1 h with h | ⟨c, hc, h⟩
        · exact .inl h
        · exact .inr ⟨c, by omega, h⟩
    · intro h
      by_cases hcm : (∃ c, c < m ∧ spriteBit b c = true ∧ FrameBuffer.cell d.1 y (spriteX x0 c) = true) ∨ d.2 = true
      · have := ih.2 hcm.symm
        split
        · simp [flipCell, this]
        · exact this
      · obtain ⟨c, hc, hb, hcell⟩ := h.resolve_left fun h => hcm (.inr h)
        obtain rfl : c = m := by
          by_contra hne
          exact hcm (.inl ⟨c, by omega, hb, hcell⟩)
        rw [if_pos hb]
        simp [flipCell, hlast, hcell]

theorem State.drawSprite_succ (s : State) (x0 y0 : Byte) (n : Nat) :
    s.drawSprite x0 y0 (n + 1) =
      drawCols (s.drawSprite x0 y0 n) (spriteY y0 n) x0 (s.readByte (s.dataAddr n)) 8 := by
  simp [State.drawSprite, List.range_succ, drawByte, drawCols]

/-- A cell that no set bit of the sprite lands on keeps its value. -/
theorem State.drawSprite_cell_other {s : State} {x0 y0 : Byte} {n : Nat} {y : Fin 32} {x : Fin 64}
    (h : ∀ row < n, ∀ col < 8, spriteBit (s.readByte (s.dataAddr row)) col = true →
      ¬ (y = spriteY y0 row ∧ x = spriteX x0 col)) :
    FrameBuffer.cell (s.drawSprite x0 y0 n).1 y x = s.pixel y x := by
  induction n with
  | zero => rfl
  | succ n ih =>
    rw [State.drawSprite_succ, drawCols_cell_other (h n (Nat.lt_succ_self n))]
    exact ih fun row hr => h row (Nat.lt_succ_of_lt hr)

/-- A cell that a set bit of the sprite lands on is inverted. -/
theorem State.drawSprite_cell_hit {s : State} {x0 y0 : Byte} {n row col : Nat} (hn : n ≤ 32) (hr : row < n) (hc : col < 8)
    (hb : spriteBit (s.readByte (s.dataAddr row)) col = true) :
    FrameBuffer.cell (s.drawSprite x0 y0 n).1 (spriteY y0 row) (spriteX x0 col) =
      !s.pixel (spriteY y0 row) (spriteX x0 col) := by
  induction n with
  | zero => omega
  | succ n ih =>
    rw [State.drawSprite_succ]
    by_cases hrn : row = n
    · subst hrn
      rw [drawCols_cell_hit (by omega) hc hb, State.drawSprite_cell_other]
      exact fun q hq c _ _ h => Nat.ne_of_gt hq (spriteY_inj y0 (by omega) (by omega) h.1)
    · rw [drawCols_cell_other, ih (by omega) (by omega)]
      exact fun c _ _ h => hrn (spriteY_inj y0 (by omega) (by omega) h.1)

/-- The collision detector (42_display.md R143): some set bit of the sprite lands on a cell that was set before the draw. -/
theorem State.drawSprite_collide {s : State} {x0 y0 : Byte} {n : Nat} (hn : n ≤ 32) :
    (s.drawSprite x0 y0 n).2 = true ↔
      ∃ row < n, ∃ col < 8, spriteBit (s.readByte (s.dataAddr row)) col = true ∧
        s.pixel (spriteY y0 row) (spriteX x0 col) = true := by
  induction n with
  | zero => simp [State.drawSprite]
  | succ n ih =>
    have ih := ih (by omega)
    have hlast : ∀ x, FrameBuffer.cell (s.drawSprite x0 y0 n).1 (spriteY y0 n) x = s.pixel (spriteY y0 n) x := fun x =>
      State.drawSprite_cell_other fun q hq c _ _ h => Nat.ne_of_gt hq (spriteY_inj y0 (by omega) (by omega) h.1)
    rw [State.drawSprite_succ, drawCols_collide (by omega), ih]
    simp only [hlast]
    constructor
    · rintro (⟨row, hr, h⟩ | h)
      · exact ⟨row, by omega, h⟩
      · exact ⟨n, by omega, h⟩
    · rintro ⟨row, hr, h⟩
      by_cases hrn : row = n
      · subst hrn; exact .inr h
      · exact .inl ⟨row, by omega, h⟩

end Sys2Proof.Machine
end

