-- ==== Sys2Proof/Laws/Step.lean ====
section
/-!
SUPPORT. The step and the fetch: what a step does by mode, what a cycle does by its checks, and that `withFetchWord` places the
word that the next step fetches.
-/

namespace Sys2Proof.Machine

/-! ## The step by mode (40_pipeline.md R100) -/

theorem step_of_running {s : State} (h : s.mode = .running) : step s = s.cycle := by simp [step, h]

theorem step_of_waiting {s : State} {x : Reg} (h : s.mode = .waitingForKey x) : step s = .next (s.poll x) := by simp [step, h]

theorem step_of_faulted {s : State} {r : FaultRecord} (h : s.mode = .faulted r) : step s = .next s := by simp [step, h]

/-! ## The cycle by its checks (40_pipeline.md R103-R106) -/

theorem step_of_fetch {s : State} {i : Instr} (hs : s.Fetches) (h : decodeWord s.fetchWord = some i) :
    step s = exec i (s.setPc (s.pc + 2)) := by
  rw [step_of_running hs.1, State.cycle, if_pos hs.2, h]; rfl

theorem step_of_illegal {s : State} (hs : s.Fetches) (h : decodeWord s.fetchWord = none) :
    step s = .next ((s.setPc (s.pc + 2)).setMode (.faulted ⟨.unimplementedOpcode s.fetchWord, s.pc⟩)) := by
  rw [step_of_running hs.1, State.cycle, if_pos hs.2, h]; rfl

theorem step_of_bad_pc {s : State} (hs : s.mode = .running) (h : ¬ Fetchable s.pc) :
    step s = .next (s.setMode (.faulted ⟨.pcOutOfRange s.pc, s.pc⟩)) := by
  rw [step_of_running hs, State.cycle, if_neg h]; rfl

/-- What a step can do: nothing, a poll, an instruction, or one of the two faults raised before dispatch. -/
theorem step_cases (s : State) :
    (∃ r, s.mode = .faulted r ∧ step s = .next s) ∨
    (∃ x, s.mode = .waitingForKey x ∧ step s = .next (s.poll x)) ∨
    (∃ i, s.Fetches ∧ decodeWord s.fetchWord = some i ∧ step s = exec i (s.setPc (s.pc + 2))) ∨
    (s.Fetches ∧ decodeWord s.fetchWord = none ∧
      step s = .next ((s.setPc (s.pc + 2)).setMode (.faulted ⟨.unimplementedOpcode s.fetchWord, s.pc⟩))) ∨
    (s.mode = .running ∧ ¬ Fetchable s.pc ∧ step s = .next (s.setMode (.faulted ⟨.pcOutOfRange s.pc, s.pc⟩))) := by
  cases hm : s.mode with
  | faulted r => exact .inl ⟨r, rfl, step_of_faulted hm⟩
  | waitingForKey x => exact .inr (.inl ⟨x, rfl, step_of_waiting hm⟩)
  | running =>
    by_cases hp : Fetchable s.pc
    · cases hd : decodeWord s.fetchWord with
      | some i => exact .inr (.inr (.inl ⟨i, ⟨hm, hp⟩, rfl, step_of_fetch ⟨hm, hp⟩ hd⟩))
      | none => exact .inr (.inr (.inr (.inl ⟨⟨hm, hp⟩, rfl, step_of_illegal ⟨hm, hp⟩ hd⟩)))
    · exact .inr (.inr (.inr (.inr ⟨rfl, hp, step_of_bad_pc hm hp⟩)))

/-- The fetch advance of a fetchable `pc` does not wrap (40_pipeline.md R105), and is undone by the `pc - 2` of a raise. -/
theorem Fetchable.advance {a : Word} (h : Fetchable a) : (a + 2).toNat = a.toNat + 2 := by
  obtain ⟨_, _, _⟩ := h; rw [BitVec.toNat_add]; simp; omega

theorem advance_sub (a : Word) : a + 2 - 2 = a := by simp

/-! ## Words, bytes and `withFetchWord` -/

/-- The two bytes of a word, high byte first, make the word again. -/
theorem bytes_append (w : Word) : (w.extractLsb' 8 8 ++ w.extractLsb' 0 8 : Word) = w := by
  apply BitVec.eq_of_toNat_eq; have := w.isLt
  rw [BitVec.toNat_append, ← Nat.shiftLeft_add_eq_or_of_lt (BitVec.isLt _)]
  simp [BitVec.extractLsb'_toNat, Nat.shiftLeft_eq, Nat.shiftRight_eq_div_pow]; omega

/-- The words of the statements, by place values, are the words by format. -/
theorem wordNNN_eq (op : Nat) (nnn : AddrField) : wordNNN op nnn = encodeNNN (BitVec.ofNat 4 op) nnn := by
  apply BitVec.eq_of_toNat_eq; have := nnn.isLt
  simp [wordNNN, encodeNNN_toNat]; omega

theorem wordXNN_eq (op : Nat) (x : Reg) (nn : Byte) : wordXNN op x nn = encodeXNN (BitVec.ofNat 4 op) x nn := by
  apply BitVec.eq_of_toNat_eq; have := nn.isLt; have := x.isLt
  simp [wordXNN, encodeXNN_toNat]; omega

theorem wordXYN_eq (op : Nat) (x y : Reg) {n : Nat} (hn : n < 16) :
    wordXYN op x y n = encodeXYN (BitVec.ofNat 4 op) x y (BitVec.ofNat 4 n) := by
  apply BitVec.eq_of_toNat_eq; have := y.isLt; have := x.isLt
  simp [wordXYN, encodeXYN_toNat]; omega

/-- `withFetchWord` places the word, and the core fetches it. -/
theorem State.withFetchWord_fetches (s : State) (nbits w : Nat) :
    (s.withFetchWord nbits w).Fetches ∧ (s.withFetchWord nbits w).fetchWord = tableWord nbits w := by
  have hf : Fetchable (if Fetchable s.pc then s.pc else 0x200) := by
    split
    · assumption
    · decide
  refine ⟨⟨rfl, hf⟩, ?_⟩
  simp only [State.fetchWord, State.withFetchWord, State.writeByte_readByte, State.writeByte_pc, State.setPc_pc]
  rw [if_neg (by omega)]; simp only [if_true]
  exact bytes_append _

end Sys2Proof.Machine
end

