-- ==== Sys2Proof/Laws/Exec.lean ====
section
/-!
SUPPORT. One lemma for each instruction that can do more than one thing, and one for what any instruction can raise.
-/

namespace Sys2Proof.Machine

/-! ## Instructions with a check -/

theorem execRet_cases (s : State) :
    (s.sp = 0 ∧ execRet s = s.raise .stackUnderflow) ∨
    (∃ (j : Reg) (p : Fin 17), s.sp.val = j.val + 1 ∧ p.val = j.val ∧
      execRet s = .next ({ s with sp := p }.setPc (s.stackAt j))) := by
  unfold execRet
  cases h : s.pop with
  | none => exact .inl ⟨State.pop_none.1 h, rfl⟩
  | some e =>
    obtain ⟨a, t⟩ := e
    obtain ⟨j, hj, rfl, hp, ht⟩ := State.pop_some h
    exact .inr ⟨j, t.sp, hj, hp, by rw [ht]⟩

theorem execCallAddr_cases (nnn : AddrField) (s : State) :
    (s.sp = 16 ∧ execCallAddr nnn s = s.raise .stackOverflow) ∨
    (s.sp.val < 16 ∧ ∃ t, s.push s.pc = some t ∧ execCallAddr nnn s = .next (t.setPc (addrOperand nnn))) := by
  unfold execCallAddr
  cases h : s.push s.pc with
  | none => exact .inl ⟨State.push_none.1 h, rfl⟩
  | some t => exact .inr ⟨(State.push_some h).1, t, rfl, rfl⟩

theorem State.skipOnKey_cases (s : State) (x : Reg) (pressed : Bool) :
    (15 < (s.reg x).toNat ∧ s.skipOnKey x pressed = s.raise (.keyIndexOutOfRange (s.reg x))) ∨
    (∃ k : Reg, (s.reg x).toNat = k.val ∧ s.skipOnKey x pressed = .next (s.skipIf (s.key k == pressed))) := by
  unfold State.skipOnKey
  cases h : keyOperand (s.reg x) with
  | none => exact .inl ⟨keyOperand_eq_none.1 h, rfl⟩
  | some k => exact .inr ⟨k, keyOperand_eq_some.1 h, rfl⟩

theorem execDrw_eq (x y : Reg) (n : Nat) (s : State) :
    execDrw x y n s =
      if 0 < n ∧ 0xFFF < s.dataAddr 0 + n - 1 then s.raise (.memoryOutOfRange (max (s.dataAddr 0) 0x1000))
      else .next ((s.setFb (s.drawSprite (s.reg x) (s.reg y) n).1).setReg regF
        (flagByte (s.drawSprite (s.reg x) (s.reg y) n).2)) := by
  rw [execDrw, checkRange_eq]; split <;> rfl

theorem execLdBVx_eq (x : Reg) (s : State) :
    execLdBVx x s =
      if 0xFFF < s.dataAddr 0 + 2 then s.raise (.memoryOutOfRange (max (s.dataAddr 0) 0x1000))
      else if s.params.protectLowMemory = true ∧ s.dataAddr 0 < 0x200 then s.raise (.protectedWrite (s.dataAddr 0))
      else .next (s.storeBytes (s.dataAddr 0) (bcdDigits (s.reg x))) :=
  State.storeAtI_eq s (bcdDigits (s.reg x)) (by simp)

theorem execLdMemVx_eq (x : Reg) (s : State) (h : s.params.blockQuirk = .conventional) :
    execLdMemVx x s =
      if 0xFFF < s.dataAddr 0 + x.val then s.raise (.memoryOutOfRange (max (s.dataAddr 0) 0x1000))
      else if s.params.protectLowMemory = true ∧ s.dataAddr 0 < 0x200 then s.raise (.protectedWrite (s.dataAddr 0))
      else .next (s.storeBytes (s.dataAddr 0) (s.regsUpTo x)) := by
  rw [execLdMemVx, State.conventionalOnly, h]
  simpa using State.storeAtI_eq s (s.regsUpTo x) (by simp)

theorem execLdVxMem_eq (x : Reg) (s : State) (h : s.params.blockQuirk = .conventional) :
    execLdVxMem x s =
      if 0xFFF < s.dataAddr 0 + x.val then s.raise (.memoryOutOfRange (max (s.dataAddr 0) 0x1000))
      else .next (s.loadRegs x) := by
  rw [execLdVxMem, State.conventionalOnly, h, checkRange_eq]
  by_cases hr : 0xFFF < s.dataAddr 0 + x.val
  · rw [if_pos ⟨Nat.succ_pos _, by omega⟩, if_pos hr]; rfl
  · rw [if_neg (by omega), if_neg hr]; rfl

theorem execLdMemVx_refused (x : Reg) (s : State) (h : s.params.blockQuirk = .observedSource) :
    execLdMemVx x s = .refused .observedBlockTransfer := by rw [execLdMemVx, State.conventionalOnly, h]

theorem execLdVxMem_refused (x : Reg) (s : State) (h : s.params.blockQuirk = .observedSource) :
    execLdVxMem x s = .refused .observedBlockTransfer := by rw [execLdVxMem, State.conventionalOnly, h]

theorem State.loadRegs_reg (s : State) (x r : Reg) :
    (s.loadRegs x).reg r = if r ≤ x then s.readByte (s.dataAddr r.val) else s.reg r := by
  rw [State.loadRegs, State.setRegs_reg]

/-! ## What any instruction can do -/

/-- Why an instruction raises a fault of kind `k` (60_exceptions.md R190). -/
def RaiseCause (i : Instr) (s : State) : FaultKind → Prop
  | .stackOverflow => s.sp = 16 ∧ ∃ nnn, i = .callAddr nnn
  | .stackUnderflow => s.sp = 0 ∧ i = .ret
  | .unimplementedOpcode _ => False
  | .pcOutOfRange _ => False
  | .memoryOutOfRange a => a = max s.i.toNat 0x1000
  | .protectedWrite a => a = s.i.toNat ∧ a < 0x200 ∧ s.params.protectLowMemory = true
  | .keyIndexOutOfRange k => 15 < k.toNat ∧ ∃ x, s.reg x = k

/-- An instruction that completes: it stays `Running` unless it is `FX0A`, and stored only inside the address space. -/
structure Completed (i : Instr) (s t : State) : Prop where
  /-- Only `FX0A` changes the mode. -/
  mode : (t.mode = s.mode ∧ ∀ x, i ≠ .ldVxK x) ∨ ∃ x, i = .ldVxK x ∧ t.mode = .waitingForKey x
  /-- The parameters stay. -/
  params : t.params = s.params
  /-- The keypad stays. -/
  keypad : t.keypad = s.keypad
  /-- The canonical form of memory is kept. -/
  memory : Memory.wf s.params.font s.mem → Memory.wf t.params.font t.mem
  /-- Only a call writes a stack entry, the `pc` after the call. -/
  stack : ∀ j, t.stackAt j = s.stackAt j ∨ t.stackAt j = s.pc
  /-- Where `pc` can go. -/
  pc : t.pc = s.pc ∨ t.pc = s.pc + 2 ∨ t.pc.toNat ≤ 0x10FE ∨ ∃ j, t.pc = s.stackAt j

theorem addrOperand_toNat (nnn : AddrField) : (addrOperand nnn).toNat = nnn.toNat := by
  have := nnn.isLt; simp [addrOperand]; omega

theorem jumpSum_toNat (nnn : AddrField) (b : Byte) : (addrOperand nnn + b.setWidth 16).toNat = nnn.toNat + b.toNat := by
  have := nnn.isLt; have := b.isLt
  rw [BitVec.toNat_add, addrOperand_toNat]; simp; omega

theorem State.dataAddr_zero (s : State) : s.dataAddr 0 = s.i.toNat := rfl

/-- An instruction that leaves the mode, the parameters, the keypad, memory and the stack alone has completed. -/
theorem Completed.plain {i : Instr} {s t : State} (hi : ∀ x, i ≠ .ldVxK x) (hm : t.mode = s.mode)
    (hp : t.params = s.params) (hk : t.keypad = s.keypad) (hmem : t.mem = s.mem) (hs : t.stack = s.stack)
    (hpc : t.pc = s.pc ∨ t.pc = s.pc + 2 ∨ t.pc.toNat ≤ 0x10FE ∨ ∃ j, t.pc = s.stackAt j) : Completed i s t where
  mode := .inl ⟨hm, hi⟩
  params := hp
  keypad := hk
  memory := by rw [hp, hmem]; exact id
  stack j := .inl (by rw [State.stackAt, hs, State.stackAt])
  pc := hpc

/-- A store of bytes inside the address space has completed. -/
theorem Completed.store {i : Instr} {s : State} (hi : ∀ x, i ≠ .ldVxK x) (a : Nat) (bs : List Byte)
    (h : a + bs.length ≤ 0x1000) : Completed i s (s.storeBytes a bs) where
  mode := .inl ⟨by simp, hi⟩
  params := by simp
  keypad := by simp
  memory hm := State.storeBytes_wf hm bs h
  stack j := .inl (by simp)
  pc := .inl (by simp)

/-- What an answer of `exec i s` can be. -/
def ExecCases (i : Instr) (s : State) (r : Answer) : Prop :=
  (∃ k, r = s.raise k ∧ RaiseCause i s k) ∨ (∃ t, r = .next t ∧ Completed i s t) ∨
  (r = .refused .observedBlockTransfer ∧ s.params.blockQuirk = .observedSource ∧ ∃ x, i = .ldMemVx x ∨ i = .ldVxMem x)

theorem ExecCases.plain {i : Instr} {s t : State} (hi : ∀ x, i ≠ .ldVxK x) (hm : t.mode = s.mode)
    (hp : t.params = s.params) (hk : t.keypad = s.keypad) (hmem : t.mem = s.mem) (hs : t.stack = s.stack)
    (hpc : t.pc = s.pc ∨ t.pc = s.pc + 2 ∨ t.pc.toNat ≤ 0x10FE ∨ ∃ j, t.pc = s.stackAt j) : ExecCases i s (.next t) :=
  .inr (.inl ⟨t, rfl, .plain hi hm hp hk hmem hs hpc⟩)

theorem ExecCases.skip {i : Instr} {s : State} (hi : ∀ x, i ≠ .ldVxK x) (c : Bool) : ExecCases i s (.next (s.skipIf c)) := by
  cases c
  · exact .plain hi rfl rfl rfl rfl rfl (.inl rfl)
  · exact .plain hi rfl rfl rfl rfl rfl (.inr (.inl rfl))

theorem ExecCases.flags {i : Instr} {s : State} (hi : ∀ x, i ≠ .ldVxK x) (x : Reg) (res f : Byte) :
    ExecCases i s (.next (s.writeback x res f)) :=
  .plain hi (by simp) (by simp) (by simp) (by simp) (by simp) (.inl (by simp))

theorem ExecCases.key {i : Instr} {s : State} (hi : ∀ x, i ≠ .ldVxK x) (x : Reg) (b : Bool) :
    ExecCases i s (s.skipOnKey x b) := by
  rcases s.skipOnKey_cases x b with ⟨h, e⟩ | ⟨k, h, e⟩ <;> rw [e]
  · exact .inl ⟨_, rfl, h, x, rfl⟩
  · exact .skip hi _

theorem ExecCases.store {i : Instr} {s : State} (hi : ∀ x, i ≠ .ldVxK x) (bs : List Byte) (hb : 0 < bs.length) :
    ExecCases i s (s.storeAtI bs) := by
  rw [State.storeAtI_eq s bs hb, State.dataAddr_zero]
  split
  · exact .inl ⟨_, rfl, rfl⟩
  · split
    · next h => exact .inl ⟨_, rfl, rfl, h.2, h.1⟩
    · exact .inr (.inl ⟨_, rfl, .store hi _ _ (by omega)⟩)

/-- Every instruction raises a fault that has its cause, or completes, or is one of the two refused transfers. -/
theorem exec_cases (i : Instr) (s : State) : ExecCases i s (exec i s) := by
  cases i with
  | nop | cls | ldByte | addByte | ldReg | orReg | andReg | xorReg | ldIAddr | rndByte | ldVxDt | ldDtVx | ldStVx | addIVx
  | ldFVx => exact .plain (by simp) rfl rfl rfl rfl rfl (.inl rfl)
  | seByte | sneByte | seReg | sneReg => exact .skip (by simp) _
  | addReg | subReg | shrReg | subnReg | shlReg => exact .flags (by simp) _ _ _
  | skp x => exact .key (by simp) x true
  | sknp x => exact .key (by simp) x false
  | jpAddr nnn =>
    have := nnn.isLt
    exact .plain (by simp) rfl rfl rfl rfl rfl (.inr (.inr (.inl (by simp [addrOperand_toNat]; omega))))
  | jpV0Addr nnn =>
    have := nnn.isLt; have := (s.jumpOffset nnn).isLt
    exact .plain (by simp) rfl rfl rfl rfl rfl (.inr (.inr (.inl (by simp only [State.setPc_pc, jumpSum_toNat]; omega))))
  | ret =>
    rcases execRet_cases s with ⟨h, e⟩ | ⟨j, p, -, -, e⟩ <;> simp only [exec] <;> rw [e]
    · exact .inl ⟨_, rfl, h, rfl⟩
    · exact .plain (by simp) rfl rfl rfl rfl rfl (.inr (.inr (.inr ⟨j, rfl⟩)))
  | callAddr nnn =>
    rcases execCallAddr_cases nnn s with ⟨h, e⟩ | ⟨-, t, ht, e⟩ <;> simp only [exec] <;> rw [e]
    · exact .inl ⟨_, rfl, h, nnn, rfl⟩
    · obtain ⟨-, -, hs, he⟩ := State.push_some ht
      have := nnn.isLt
      refine .inr (.inl ⟨_, rfl, ?_, ?_, ?_, ?_, fun j => ?_, .inr (.inr (.inl ?_))⟩)
      · exact .inl ⟨by rw [he]; rfl, (by simp)⟩
      · rw [he]; rfl
      · rw [he]; rfl
      · rw [he]; exact id
      · rw [State.setPc_stackAt, hs j]
        by_cases hj : j.val = s.sp.val <;> simp [hj]
      · simp [addrOperand_toNat]; omega
  | drw x y n =>
    simp only [exec]; rw [execDrw_eq, State.dataAddr_zero]
    split
    · exact .inl ⟨_, rfl, rfl⟩
    · exact .plain (by simp) rfl rfl rfl rfl rfl (.inl rfl)
  | ldBVx x =>
    have e : exec (.ldBVx x) s = s.storeAtI (bcdDigits (s.reg x)) := rfl
    rw [e]; exact .store (by simp) _ (by simp)
  | ldMemVx x =>
    cases h : s.params.blockQuirk with
    | observedSource => exact .inr (.inr ⟨execLdMemVx_refused x s h, h, x, .inl rfl⟩)
    | conventional =>
      have e : exec (.ldMemVx x) s = s.storeAtI (s.regsUpTo x) := by simp only [exec, execLdMemVx, State.conventionalOnly, h]
      rw [e]; exact .store (by simp) _ (by simp)
  | ldVxMem x =>
    cases h : s.params.blockQuirk with
    | observedSource => exact .inr (.inr ⟨execLdVxMem_refused x s h, h, x, .inr rfl⟩)
    | conventional =>
      simp only [exec]; rw [execLdVxMem_eq x s h, State.dataAddr_zero]
      split
      · exact .inl ⟨_, rfl, rfl⟩
      · rw [State.loadRegs]
        exact .plain (by simp) (by simp) (by simp) (by simp) (by simp) (by simp) (.inl (by simp))
  | ldVxK x =>
    refine .inr (.inl ⟨s.setMode (.waitingForKey x), rfl, ?_⟩)
    exact { mode := .inr ⟨x, rfl, rfl⟩, params := rfl, keypad := rfl, memory := id, stack := fun _ => .inl rfl, pc := .inl rfl }

/-- What a step of a running core that answers a next state has done: an instruction raised, or completed, or the word was
illegal, or the fetch check failed. -/
theorem running_step_cases {s t : State} (hm : s.mode = .running) (h : step s = .next t) :
    (∃ k i, s.Fetches ∧ decodeWord s.fetchWord = some i ∧ RaiseCause i (s.setPc (s.pc + 2)) k ∧
      t = (s.setPc (s.pc + 2)).setMode (.faulted ⟨k, s.pc⟩)) ∨
    (∃ i, s.Fetches ∧ decodeWord s.fetchWord = some i ∧ exec i (s.setPc (s.pc + 2)) = .next t ∧
      Completed i (s.setPc (s.pc + 2)) t) ∨
    (s.Fetches ∧ decodeWord s.fetchWord = none ∧
      t = (s.setPc (s.pc + 2)).setMode (.faulted ⟨.unimplementedOpcode s.fetchWord, s.pc⟩)) ∨
    (¬ Fetchable s.pc ∧ t = s.setMode (.faulted ⟨.pcOutOfRange s.pc, s.pc⟩)) := by
  rcases step_cases s with ⟨r, h1, -⟩ | ⟨x, h1, -⟩ | ⟨i, hf, hd, e⟩ | ⟨hf, hd, e⟩ | ⟨-, hp, e⟩
  · rw [hm] at h1; cases h1
  · rw [hm] at h1; cases h1
  · rcases exec_cases i (s.setPc (s.pc + 2)) with ⟨k, e2, hc⟩ | ⟨u, e2, hc⟩ | ⟨e2, -⟩ <;> rw [e, e2] at h <;> cases h
    · exact .inl ⟨k, i, hf, hd, hc, by simp⟩
    · exact .inr (.inl ⟨i, hf, hd, e2, hc⟩)
  · rw [e] at h; cases h; exact .inr (.inr (.inl ⟨hf, hd, rfl⟩))
  · rw [e] at h; cases h; exact .inr (.inr (.inr ⟨hp, rfl⟩))

end Sys2Proof.Machine
end

