-- ==== Sys2Proof/Laws/Host.lean ====
section
/-!
SUPPORT. Sequences of host operations: one step as a sequence, and a sequence after another.
-/

namespace Sys2Proof.Machine

theorem operateAll_step {s t : State} (h : step s = .next t) :
    operateAll [.step] s = .next (t, [.stepped t.stepResult]) := by
  simp [operateAll, operate, h]

/-- A sequence of operations after one that answered: the responses follow each other. -/
theorem operateAll_append {a b : List HostOp} {s t u : State} {rs qs : List Response}
    (ha : operateAll a s = .next (t, rs)) (hb : operateAll b t = .next (u, qs)) :
    operateAll (a ++ b) s = .next (u, rs ++ qs) := by
  induction a generalizing s rs with
  | nil => cases ha; simpa using hb
  | cons op a ih =>
    simp only [List.cons_append, operateAll] at *
    cases e : operate op s with
    | next v =>
      obtain ⟨v, r⟩ := v
      rw [e] at ha; simp only at ha ⊢
      cases e2 : operateAll a v with
      | next w =>
        obtain ⟨w, ws⟩ := w
        rw [e2] at ha; cases ha
        rw [ih e2]; rfl
      | fault w => rw [e2] at ha; cases ha
      | refused w => rw [e2] at ha; cases ha
    | fault v => rw [e] at ha; cases ha
    | refused v => rw [e] at ha; cases ha

end Sys2Proof.Machine
end

