-- ==== Sys2Proof/Laws/PerInstr.lean ====
section
/-!
SUPPORT. The per-instruction family EncodesInRow: the word of an instruction has the fixed bits of its own row of
30_encoding.md R85, whatever its operands are.
-/

namespace Sys2Proof.Laws.EncodesInRow

/-- The encoded word selects the instruction's row of the opcode map. -/
def Statement (i : Instr) : Prop := i.row.selects (encode i) = true

/-! ## One lemma per format -/

theorem nnnRow (op : BitVec 4) (nnn : AddrField) :
    OpcodeRow.selects ⟨encodeNNN op 0, 0xF000#16⟩ (encodeNNN op nnn) = true := by
  simp [OpcodeRow.selects, and_maskNNN]

theorem xnnRow (op : BitVec 4) (x : Reg) (nn : Byte) :
    OpcodeRow.selects ⟨encodeNNN op 0, 0xF000#16⟩ (encodeXNN op x nn) = true := by
  simp [OpcodeRow.selects, and_maskNNN]

theorem xynRow (op : BitVec 4) (x y : Reg) (n : BitVec 4) :
    OpcodeRow.selects ⟨encodeNNN op 0, 0xF000#16⟩ (encodeXYN op x y n) = true := by
  simp [OpcodeRow.selects, and_maskNNN]

theorem xyfRow (op : BitVec 4) (x y : Reg) (f : BitVec 4) :
    OpcodeRow.selects ⟨encodeXYN op 0 0 f, 0xF00F#16⟩ (encodeXYN op x y f) = true := by
  simp [OpcodeRow.selects, and_maskXYF]

theorem xffRow (op : BitVec 4) (x : Reg) (f : Byte) :
    OpcodeRow.selects ⟨encodeXNN op 0 f, 0xF0FF#16⟩ (encodeXNN op x f) = true := by
  simp [OpcodeRow.selects, and_maskXFF]

/-! ## One lemma per constructor -/

theorem nop : Statement .nop := rfl
theorem cls : Statement .cls := rfl
theorem ret : Statement .ret := rfl
theorem jpAddr (nnn : AddrField) : Statement (.jpAddr nnn) := nnnRow _ _
theorem callAddr (nnn : AddrField) : Statement (.callAddr nnn) := nnnRow _ _
theorem seByte (x : Reg) (nn : Byte) : Statement (.seByte x nn) := xnnRow _ _ _
theorem sneByte (x : Reg) (nn : Byte) : Statement (.sneByte x nn) := xnnRow _ _ _
theorem seReg (x y : Reg) : Statement (.seReg x y) := xyfRow _ _ _ _
theorem sneReg (x y : Reg) : Statement (.sneReg x y) := xyfRow _ _ _ _
theorem ldByte (x : Reg) (nn : Byte) : Statement (.ldByte x nn) := xnnRow _ _ _
theorem addByte (x : Reg) (nn : Byte) : Statement (.addByte x nn) := xnnRow _ _ _
theorem ldReg (x y : Reg) : Statement (.ldReg x y) := xyfRow _ _ _ _
theorem orReg (x y : Reg) : Statement (.orReg x y) := xyfRow _ _ _ _
theorem andReg (x y : Reg) : Statement (.andReg x y) := xyfRow _ _ _ _
theorem xorReg (x y : Reg) : Statement (.xorReg x y) := xyfRow _ _ _ _
theorem addReg (x y : Reg) : Statement (.addReg x y) := xyfRow _ _ _ _
theorem subReg (x y : Reg) : Statement (.subReg x y) := xyfRow _ _ _ _
theorem shrReg (x y : Reg) : Statement (.shrReg x y) := xyfRow _ _ _ _
theorem subnReg (x y : Reg) : Statement (.subnReg x y) := xyfRow _ _ _ _
theorem shlReg (x y : Reg) : Statement (.shlReg x y) := xyfRow _ _ _ _
theorem ldIAddr (nnn : AddrField) : Statement (.ldIAddr nnn) := nnnRow _ _
theorem jpV0Addr (nnn : AddrField) : Statement (.jpV0Addr nnn) := nnnRow _ _
theorem rndByte (x : Reg) (nn : Byte) : Statement (.rndByte x nn) := xnnRow _ _ _
theorem drw (x y : Reg) (n : Nat) : Statement (.drw x y n) := xynRow _ _ _ _
theorem skp (x : Reg) : Statement (.skp x) := xffRow _ _ _
theorem sknp (x : Reg) : Statement (.sknp x) := xffRow _ _ _
theorem ldVxDt (x : Reg) : Statement (.ldVxDt x) := xffRow _ _ _
theorem ldDtVx (x : Reg) : Statement (.ldDtVx x) := xffRow _ _ _
theorem ldStVx (x : Reg) : Statement (.ldStVx x) := xffRow _ _ _
theorem addIVx (x : Reg) : Statement (.addIVx x) := xffRow _ _ _
theorem ldFVx (x : Reg) : Statement (.ldFVx x) := xffRow _ _ _
theorem ldBVx (x : Reg) : Statement (.ldBVx x) := xffRow _ _ _
theorem ldMemVx (x : Reg) : Statement (.ldMemVx x) := xffRow _ _ _
theorem ldVxMem (x : Reg) : Statement (.ldVxMem x) := xffRow _ _ _
theorem ldVxK (x : Reg) : Statement (.ldVxK x) := xffRow _ _ _

end Sys2Proof.Laws.EncodesInRow
end

