-- ==== Sys2Proof/Tests/Slice0.lean ====
section
/-!
SUPPORT. Tests and witnesses. The expected values of a test are those of the vector of spec/95_test_vectors.md named in its comment
(T<n>, H<n>, P<n>) or of the example of the rule named; a witness shows values that meet the hypotheses of one statement.
-/

namespace Sys2Proof.Tests

open Sys2Proof Sys2Proof.Machine

/-! ## Helpers -/

/-- A core with the given parameters that fetches the word `w` at 0x200 next. -/
def coreWith (p : Params) (w : Nat) : State := (State.resetWith p).withFetchWord 16 w

/-- A core with the default parameters that fetches the word `w` at 0x200 next. -/
def coreAt (w : Nat) : State := coreWith defaultParams w

/-- What a step answers, if it answers a next state. -/
def next (s : State) : Option State :=
  match step s with
  | .next t => some t
  | .fault _ => none
  | .refused _ => none

/-- A function of the next state. -/
def view {α : Type} (s : State) (f : State → α) : Option α := (next s).map f

/-- The parameters with `JUMP_QUIRK = VX`. -/
def vxJump : Params := { defaultParams with jumpQuirk := .vx }
/-- The parameters with `SHIFT_QUIRK = VY`. -/
def vyShift : Params := { defaultParams with shiftQuirk := .vy }
/-- The parameters with `VF_ORDER = ResultLast`. -/
def resultLast : Params := { defaultParams with vfOrder := .resultLast }
/-- The parameters with `PROTECT_LOW_MEMORY = true`. -/
def protecting : Params := { defaultParams with protectLowMemory := true }
/-- The parameters with `BLOCK_QUIRK = ObservedSource`. -/
def observed : Params := { defaultParams with blockQuirk := .observedSource }

/-! ## WellFormed: the one check, with a term it refuses -/

theorem test_wellFormed_rows : Instr.wellFormed (.drw 0 0 16) = false ∧ Instr.wellFormed (.drw 0 0 15) = true := by decide

/-! ## Decoding: a word of every row, written out from the formats of 30_encoding.md R82 and R85 -/

theorem test_decode_family0 :
    decodeWord 0b0000000000000000#16 = some .nop ∧ decodeWord 0b0000000011100000#16 = some .cls ∧
    decodeWord 0b0000000011101110#16 = some .ret ∧ decodeWord 0b0000000100100011#16 = none := by decide

theorem test_decode_addresses :
    decodeWord 0b0001101010111100#16 = some (.jpAddr 0xABC) ∧ decodeWord 0b0010010000000001#16 = some (.callAddr 0x401) ∧
    decodeWord 0b1010000100100011#16 = some (.ldIAddr 0x123) ∧
    decodeWord 0b1011111111111110#16 = some (.jpV0Addr 0xFFE) := by decide

theorem test_decode_bytes :
    decodeWord 0b0011101000010100#16 = some (.seByte 0xA 0x14) ∧ decodeWord 0b0100001100000001#16 = some (.sneByte 3 0x01) ∧
    decodeWord 0b0110101011111111#16 = some (.ldByte 0xA 0xFF) ∧ decodeWord 0b0111111100000001#16 = some (.addByte 0xF 0x01) ∧
    decodeWord 0b1100001100001111#16 = some (.rndByte 3 0x0F) := by decide

theorem test_decode_registers :
    decodeWord 0b0101000100100000#16 = some (.seReg 1 2) ∧ decodeWord 0b1001000100100000#16 = some (.sneReg 1 2) ∧
    decodeWord 0b1000000100100000#16 = some (.ldReg 1 2) ∧ decodeWord 0b1000000100100001#16 = some (.orReg 1 2) ∧
    decodeWord 0b1000000100100010#16 = some (.andReg 1 2) ∧ decodeWord 0b1000000100100011#16 = some (.xorReg 1 2) ∧
    decodeWord 0b1000000100100100#16 = some (.addReg 1 2) ∧ decodeWord 0b1000000100100101#16 = some (.subReg 1 2) ∧
    decodeWord 0b1000000100100110#16 = some (.shrReg 1 2) ∧ decodeWord 0b1000000100100111#16 = some (.subnReg 1 2) ∧
    decodeWord 0b1000000100101110#16 = some (.shlReg 1 2) := by decide

theorem test_decode_draw : decodeWord 0b1101101010110101#16 = some (.drw 0xA 0xB 5) := by decide

theorem test_decode_keys_timers :
    decodeWord 0b1110000110011110#16 = some (.skp 1) ∧ decodeWord 0b1110000110100001#16 = some (.sknp 1) ∧
    decodeWord 0b1111010100000111#16 = some (.ldVxDt 5) ∧ decodeWord 0b1111001100001010#16 = some (.ldVxK 3) ∧
    decodeWord 0b1111010100010101#16 = some (.ldDtVx 5) ∧ decodeWord 0b1111001000011000#16 = some (.ldStVx 2) := by decide

theorem test_decode_index :
    decodeWord 0b1111000000011110#16 = some (.addIVx 0) ∧ decodeWord 0b1111001100101001#16 = some (.ldFVx 3) ∧
    decodeWord 0b1111000000110011#16 = some (.ldBVx 0) ∧ decodeWord 0b1111001001010101#16 = some (.ldMemVx 2) ∧
    decodeWord 0b1111001001100101#16 = some (.ldVxMem 2) := by decide

/-- The illegal words of T6 to T13. -/
theorem test_decode_illegal :
    decodeWord 0x0123#16 = none ∧ decodeWord 0x00E1#16 = none ∧ decodeWord 0x5121#16 = none ∧ decodeWord 0x8128#16 = none ∧
    decodeWord 0x800F#16 = none ∧ decodeWord 0x9121#16 = none ∧ decodeWord 0xE1FF#16 = none ∧
    decodeWord 0xF1FF#16 = none := by decide

/-- The bytes are read high byte first (30_encoding.md R80), and a word is numbered as the table numbers it. -/
theorem test_decode_order : decode [0x61, 0x2A, 0x00] = .ok (.ldByte 1 0x2A, [0x00]) ∧ decode [0x61] = .error .truncated ∧
    decodeTableWord 16 0x612A = some (.ldByte 1 0x2A) ∧ decodeTableWord 16 0x0123 = none := by decide

/-! ## Fetch and faults -/

/-- T1. -/
theorem test_fetch_bigEndian : view (coreAt 0x612A) (fun t => (t.reg 1, t.pc)) = some (0x2A, 0x202) := by decide

/-- T2. -/
theorem test_fetch_oddPc : view ((coreAt 0).setPc 0x201) (fun t => (t.pc, t.mode)) =
    some (0x201, .faulted ⟨.pcOutOfRange 0x201, 0x201⟩) := by decide

/-- T6. -/
theorem test_unimplemented : view (coreAt 0x0123) (fun t => (t.pc, t.mode)) =
    some (0x202, .faulted ⟨.unimplementedOpcode 0x0123, 0x200⟩) := by decide

/-! ## Flow -/

/-- T5. -/
theorem test_nop_last : view ((coreAt 0).setPc 0xFFE) (fun t => (t.pc, t.mode)) = some (0x1000, .running) := by decide

/-- T23, on a stack whose sixteenth entry is 0x300. -/
theorem test_ret_full : view { coreAt 0x00EE with sp := 16, stack := (Vector.replicate 16 0).set 15 0x300 }
    (fun t => (t.pc, t.sp.val)) = some (0x300, 15) := by decide

/-- T22. -/
theorem test_ret_underflow : view (coreAt 0x00EE) (fun t => (t.pc, t.mode, t.sp.val)) =
    some (0x202, .faulted ⟨.stackUnderflow, 0x200⟩, 0) := by decide

/-- T24. -/
theorem test_jp : view (coreAt 0x1ABC) (·.pc) = some 0xABC := by decide

/-- T28. -/
theorem test_call_sixteenth : view { coreAt 0x2400 with sp := 15 } (fun t => (t.pc, t.sp.val, t.stackAt 15)) =
    some (0x400, 16, 0x202) := by decide

/-- T29. -/
theorem test_call_overflow : view { coreAt 0x2400 with sp := 16 } (fun t => (t.pc, t.mode, t.sp.val)) =
    some (0x202, .faulted ⟨.stackOverflow, 0x200⟩, 16) := by decide

/-- T30, T31. -/
theorem test_seByte : view ((coreAt 0x3014).setReg 0 0x14) (·.pc) = some 0x204 ∧
    view ((coreAt 0x3014).setReg 0 0x0A) (·.pc) = some 0x202 := by decide

/-- T33, T34. -/
theorem test_sneByte : view (coreAt 0x4300) (·.pc) = some 0x202 ∧ view (coreAt 0x4301) (·.pc) = some 0x204 := by decide

/-- T35, T36. -/
theorem test_seReg : view (((coreAt 0x5120).setReg 1 7).setReg 2 7) (·.pc) = some 0x204 ∧
    view (((coreAt 0x5120).setReg 1 7).setReg 2 8) (·.pc) = some 0x202 := by decide

/-- T38, T39. -/
theorem test_sneReg : view (((coreAt 0x9120).setReg 1 7).setReg 2 8) (·.pc) = some 0x204 ∧
    view ((coreAt 0x9440).setReg 4 0x99) (·.pc) = some 0x202 := by decide

/-- T41. -/
theorem test_jpV0_noWrap : view ((coreAt 0xBFFE).setReg 0 0x02) (·.pc) = some 0x1000 := by decide

/-- T42, T43. -/
theorem test_jpV0_quirk : view ((coreAt 0xB240).setReg 2 0x10) (·.pc) = some 0x240 ∧
    view ((coreWith vxJump 0xB240).setReg 2 0x10) (·.pc) = some 0x250 := by decide

/-! ## Display -/

/-- T50, on a framebuffer of one set cell. -/
theorem test_cls : view (((coreAt 0x00E0).setFb (FrameBuffer.setCell FrameBuffer.clear 31 63 true)).setReg regF 7)
    (fun t => (t.pixel 31 63, t.reg regF)) = some (false, 7) := by decide

/-- T59: every pixel wraps; bit 7 is the leftmost. -/
theorem test_drw_wrap : view (((((coreAt 0xD011).setI 0x300).writeByte 0x300 0x81).setReg 0 0x3C).setReg 1 0x05)
    (fun t => (t.pixel 5 60, t.pixel 5 3, t.pixel 5 61, t.reg regF)) = some (true, true, false, 0) := by decide

/-- T57. -/
theorem test_drw_fault : view (((coreAt 0xD013).setI 0xFFE).setReg regF 9) (fun t => (t.pc, t.mode, t.reg regF)) =
    some (0x202, .faulted ⟨.memoryOutOfRange 0x1000, 0x200⟩, 9) := by decide

/-! ## ALU -/

/-- T61. -/
theorem test_ldByte : view (coreAt 0x6F12) (fun t => (t.reg 15, t.pc)) = some (0x12, 0x202) := by decide

/-- T62. -/
theorem test_addByte_wrap : view (((coreAt 0x7101).setReg 1 0xFF).setReg regF 9) (fun t => (t.reg 1, t.reg regF)) =
    some (0x00, 9) := by decide

/-- T64. -/
theorem test_ldReg : view ((coreAt 0x8120).setReg 2 0x33) (fun t => (t.reg 1, t.reg 2)) = some (0x33, 0x33) := by decide

/-- T65, T66, T67. -/
theorem test_logic :
    view ((((coreAt 0x8011).setReg 0 0x0C).setReg 1 0x0A).setReg regF 1) (fun t => (t.reg 0, t.reg regF)) = some (0x0E, 1) ∧
    view ((((coreAt 0x8012).setReg 0 0x0C).setReg 1 0x0A).setReg regF 1) (fun t => (t.reg 0, t.reg regF)) = some (0x08, 1) ∧
    view ((((coreAt 0x8013).setReg 0 0x0C).setReg 1 0x0A).setReg regF 1) (fun t => (t.reg 0, t.reg regF)) = some (0x06, 1) := by
  decide

/-- T69, T72. -/
theorem test_addReg :
    view (((coreAt 0x8014).setReg 0 0xFF).setReg 1 0x01) (fun t => (t.reg 0, t.reg regF)) = some (0x00, 1) ∧
    view (((coreAt 0x80F4).setReg 0 0x02).setReg regF 0x01) (fun t => (t.reg 0, t.reg regF)) = some (0x03, 0) := by decide

/-- T75, T76. -/
theorem test_addReg_vf :
    view (((coreAt 0x8F14).setReg regF 0x10).setReg 1 0x20) (·.reg regF) = some 0x00 ∧
    view (((coreWith resultLast 0x8F14).setReg regF 0x10).setReg 1 0x20) (·.reg regF) = some 0x30 := by decide

/-- T77, T78. -/
theorem test_subReg :
    view (((coreAt 0x8015).setReg 0 0x05).setReg 1 0x05) (fun t => (t.reg 0, t.reg regF)) = some (0x00, 1) ∧
    view (((coreAt 0x8015).setReg 0 0x04).setReg 1 0x05) (fun t => (t.reg 0, t.reg regF)) = some (0xFF, 0) := by decide

/-- T81, T82. -/
theorem test_subReg_vf :
    view (((coreAt 0x8F15).setReg regF 0x05).setReg 1 0x03) (·.reg regF) = some 0x01 ∧
    view (((coreWith resultLast 0x8F15).setReg regF 0x05).setReg 1 0x03) (·.reg regF) = some 0x02 := by decide

/-- T83, T86. -/
theorem test_shrReg :
    view ((coreAt 0x8006).setReg 0 0x05) (fun t => (t.reg 0, t.reg regF)) = some (0x02, 1) ∧
    view ((coreWith vyShift 0x8016).setReg 1 0x03) (fun t => (t.reg 0, t.reg 1, t.reg regF)) = some (0x01, 0x03, 1) := by decide

/-- T87, T88. -/
theorem test_shrReg_vf : view ((coreAt 0x8F06).setReg regF 0x05) (·.reg regF) = some 0x01 ∧
    view ((coreWith resultLast 0x8F06).setReg regF 0x05) (·.reg regF) = some 0x02 := by decide

/-- T89, T90. -/
theorem test_subnReg :
    view (((coreAt 0x8017).setReg 0 0x05).setReg 1 0x03) (fun t => (t.reg 0, t.reg regF)) = some (0xFE, 0) ∧
    view (((coreAt 0x8017).setReg 0 0x03).setReg 1 0x05) (fun t => (t.reg 0, t.reg regF)) = some (0x02, 1) := by decide

/-- T92, T93. -/
theorem test_subnReg_vf :
    view (((coreAt 0x8F17).setReg regF 0x10).setReg 1 0x05) (·.reg regF) = some 0x00 ∧
    view (((coreWith resultLast 0x8F17).setReg regF 0x10).setReg 1 0x05) (·.reg regF) = some 0xF5 := by decide

/-- T94, T96. -/
theorem test_shlReg :
    view ((coreAt 0x800E).setReg 0 0x81) (fun t => (t.reg 0, t.reg regF)) = some (0x02, 1) ∧
    view ((coreWith vyShift 0x801E).setReg 1 0x81) (fun t => (t.reg 0, t.reg regF)) = some (0x02, 1) := by decide

/-- T97, T98. -/
theorem test_shlReg_vf : view ((coreAt 0x8F0E).setReg regF 0x81) (·.reg regF) = some 0x01 ∧
    view ((coreWith resultLast 0x8F0E).setReg regF 0x81) (·.reg regF) = some 0x02 := by decide

/-- T99 and T101, with the random byte given. -/
theorem test_random : (State.reset.random 3 0x0F 0xB7).reg 3 = 0x07 ∧ (State.reset.random 3 0xFF 0x5A).reg 3 = 0x5A := by decide

/-- T100: whatever the random byte is. -/
theorem test_rnd_zero : view (coreAt 0xC300) (fun t => (t.pc, t.draws)) = some (0x202, 1) ∧
    ∀ r, (State.reset.random 3 0x00 r).reg 3 = 0 := by
  refine ⟨by decide, fun r => ?_⟩
  show (State.reset.setReg 3 (r &&& 0#8)).reg 3 = 0
  rw [BitVec.and_zero]; decide

/-! ## Index register and memory -/

/-- T110. -/
theorem test_ldI : view (coreAt 0xA123) (·.i) = some 0x123 := by decide

/-- T112, T113. -/
theorem test_addI : view (((coreAt 0xF01E).setI 0xFFF).setReg 0 1) (·.i) = some 0x1000 ∧
    view (((coreAt 0xF01E).setI 0xFFFF).setReg 0 1) (·.i) = some 0 := by decide

/-- T114, T117. -/
theorem test_ldF : view ((coreAt 0xF329).setReg 3 0x0A) (·.i) = some 50 ∧
    view ((coreAt 0xF029).setReg 0 0xFF) (·.i) = some 1275 := by decide

/-- T118, T122. -/
theorem test_bcd :
    view (((coreAt 0xF033).setI 0x300).setReg 0 0xFF) (fun t => [0x300, 0x301, 0x302].map t.readByte) = some [2, 5, 5] ∧
    view (((coreAt 0xF033).setI 0xFFD).setReg 0 0x80) (fun t => [0xFFD, 0xFFE, 0xFFF].map t.readByte) = some [1, 2, 8] := by decide

/-- T125. -/
theorem test_bcd_protected : view (((coreWith protecting 0xF033).setI 0x100).setReg 0 0x80) (fun t => (t.pc, t.mode)) =
    some (0x202, .faulted ⟨.protectedWrite 0x100, 0x200⟩) := by decide

/-- T126, with registers 1, 2, 3, 4 in `V[0]`..`V[3]`. -/
theorem test_store : view ((((((coreAt 0xF255).setI 0x300).setReg 0 1).setReg 1 2).setReg 2 3).setReg 3 4)
    (fun t => ([0x300, 0x301, 0x302, 0x303].map t.readByte, t.i)) = some ([1, 2, 3, 0], 0x300) := by decide

/-- T129. -/
theorem test_store_fault : view ((coreAt 0xFF55).setI 0xFF1) (fun t => (t.mode, t.mem)) =
    some (.faulted ⟨.memoryOutOfRange 0x1000, 0x200⟩, (coreAt 0xFF55).mem) := by decide

/-- T132. -/
theorem test_load : view ((((coreAt 0xF265).setI 0x300).storeBytes 0x300 [2, 5, 4]).setReg 3 9)
    (fun t => (t.reg 0, t.reg 1, t.reg 2, t.reg 3)) = some (2, 5, 4, 9) := by decide

/-- T135. -/
theorem test_load_font : view (coreWith protecting 0xF465) (fun t => [0, 1, 2, 3, 4].map t.reg) =
    some [0xF0, 0x90, 0x90, 0x90, 0xF0] := by decide

/-! ## Keys and timers -/

/-- T140, T141. -/
theorem test_skp : view (((coreAt 0xE19E).setReg 1 7).keyDown 7) (·.pc) = some 0x204 ∧
    view ((coreAt 0xE19E).setReg 1 7) (·.pc) = some 0x202 := by decide

/-- T142. -/
theorem test_skp_fault : view ((coreAt 0xE19E).setReg 1 0x10) (fun t => (t.pc, t.mode)) =
    some (0x202, .faulted ⟨.keyIndexOutOfRange 0x10, 0x200⟩) := by decide

/-- T143, T144. -/
theorem test_sknp : view ((coreAt 0xE1A1).setReg 1 7) (·.pc) = some 0x204 ∧
    view (((coreAt 0xE1A1).setReg 1 7).keyDown 7) (·.pc) = some 0x202 := by decide

/-- T146, T150, T151. -/
theorem test_timers : view ((coreAt 0xF507).setDt 0x3C) (·.reg 5) = some 0x3C ∧
    view ((coreAt 0xF515).setReg 5 0x3C) (·.dt) = some 0x3C ∧ view ((coreAt 0xF218).setReg 2 1) (·.st) = some 1 := by decide

/-- T147. -/
theorem test_wait : view ((coreAt 0xF30A).keyDown 5) (fun t => (t.pc, t.mode, t.reg 3)) =
    some (0x202, .waitingForKey 3, 0) := by decide

/-- T149, the second step. -/
theorem test_poll : view (((State.reset.setMode (.waitingForKey 15)).keyDown 9).keyDown 3) (fun t => (t.reg regF, t.mode)) =
    some (3, .running) := by decide

/-! ## Host operations -/

/-- H1, H2. -/
theorem test_tick :
    (((State.reset.setDt 5).setSt 1).tickTimers.1.dt, ((State.reset.setDt 5).setSt 1).tickTimers.1.st,
      ((State.reset.setDt 5).setSt 1).tickTimers.2) = (4, 0, true) ∧
    (State.reset.tickTimers.1.dt, State.reset.tickTimers.1.st, State.reset.tickTimers.2) = (0, 0, false) := by decide

/-- H5. -/
theorem test_key_outside : State.reset.keyDown 16 = State.reset ∧ State.reset.keyUp 0x20 = State.reset := by decide

/-- H9 without the step, and H8. -/
theorem test_load_reset : ((State.reset.load [0x01, 0x23]).1.readByte 0x201, (State.reset.load [0x01, 0x23]).2) = (0x23, .ok) ∧
    (State.reset.load [0x01, 0x23]).1.doReset = State.reset ∧ State.reset.load [] = (State.reset, .ok) := by decide

/-- H10: the first step from reset executes zeroed memory. -/
theorem test_first_step : next State.reset = some (State.reset.setPc 0x202) := by decide

/-- Writing what an address holds after reset takes it off the list, so that equal memories are equal data. -/
theorem test_memory_canonical : ((State.reset.writeByte 0x300 5).writeByte 0x300 0).mem = [] ∧
    (State.reset.writeByte 0 0xF0).mem = [] ∧ (State.reset.writeByte 0 0).mem = [(0, 0)] ∧
    ((State.reset.writeByte 0x301 5).writeByte 0x300 6).mem = [(0x300, 6), (0x301, 5)] := by decide

/-! ## Witnesses: states and operands that meet the hypotheses of each statement -/

/-- A core that waits for a key for `V[15]`. -/
def waiting : State := State.reset.setMode (.waitingForKey 15)

/-- A core faulted by a call at 0xFFE on a full stack. -/
def overflowed : State :=
  { State.reset with mode := .faulted ⟨.stackOverflow, 0xFFE⟩, pc := 0x1000, sp := 16, stack := Vector.replicate 16 0x1000 }

theorem fetches_coreAt (w : Nat) : (coreAt w).Fetches := (State.withFetchWord_fetches (State.resetWith defaultParams) 16 w).1

theorem witness_DecodeOfEncode : (Instr.drw 15 15 15).wellFormed = true ∧ Instr.nop.wellFormed = true := by decide

theorem witness_EncodeOfDecode : decodeWord 0xFF65#16 = some (.ldVxMem 15) := by decide

theorem witness_DecoderSelectsAsTheTable :
    ((coreAt 0xFF65).Fetches ∧ decodeWord (coreAt 0xFF65).fetchWord = some (.ldVxMem 15)) ∧
    ((coreAt 0x0123).Fetches ∧ ∀ r ∈ opcodeRows, r.selects (coreAt 0x0123).fetchWord = false) :=
  ⟨⟨fetches_coreAt _, by decide⟩, fetches_coreAt _, by decide⟩

theorem witness_IllegalWordsRaiseUnimplementedOpcode :
    ((coreAt 0x800F).Fetches ∧ IllegalWord (coreAt 0x800F).fetchWord) ∧
    ((coreAt 0x800E).Fetches ∧ ¬ IllegalWord (coreAt 0x800E).fetchWord) := by
  refine ⟨⟨fetches_coreAt _, ?_⟩, fetches_coreAt _, ?_⟩ <;> unfold IllegalWord <;> decide

theorem witness_StepRunsTheDecodedInstruction : (coreAt 0x612A).Fetches ∧
    decode [(coreAt 0x612A).readByte (coreAt 0x612A).pc.toNat, (coreAt 0x612A).readByte ((coreAt 0x612A).pc.toNat + 1)] =
      .ok (.ldByte 1 0x2A, []) := ⟨fetches_coreAt _, by decide⟩

/-- Clause by clause at the bounds: odd, the last even address below 0x200, the first even one above 0xFFE; and 0xFFE fetches. -/
theorem witness_BadPcRaisesPcOutOfRange :
    (State.reset.setPc 0xFFF).mode = .running ∧ (State.reset.setPc 0xFFF).pc.toNat % 2 = 1 ∧
    (State.reset.setPc 0x1FE).pc.toNat < 0x200 ∧ 0xFFE < (State.reset.setPc 0x1000).pc.toNat ∧
    (State.reset.setPc 0xFFE).Fetches ∧ (next (State.reset.setPc 0xFFE)).isSome = true :=
  ⟨rfl, by decide, by decide, by decide, ⟨rfl, by decide⟩, by decide⟩

theorem witness_FaultedCoreNeverMoves : overflowed.mode = .faulted ⟨.stackOverflow, 0xFFE⟩ := rfl

theorem witness_WaitWithoutKeyNeverMoves : waiting.mode = .waitingForKey 15 ∧ ∀ k, waiting.key k = false := by decide

theorem witness_PollTakesTheLowestPressedKey :
    ((waiting.keyDown 15).mode = .waitingForKey 15 ∧ (waiting.keyDown 15).key 15 = true ∧
      ∀ j, j < 15 → (waiting.keyDown 15).key j = false) ∧
    ((waiting.keyDown 15).keyDown 0).key 0 = true ∧ ∀ j : Reg, j < 0 → ((waiting.keyDown 15).keyDown 0).key j = false := by decide

theorem witness_ModeTransitions :
    (coreAt 0xFF0A).mode = .running ∧ view (coreAt 0xFF0A) (·.mode) = some (.waitingForKey 15) ∧
    view (coreAt 0) (·.mode) = some .running ∧ view (coreAt 0x00EE) (·.mode) = some (.faulted ⟨.stackUnderflow, 0x200⟩) ∧
    view waiting (·.mode) = some (.waitingForKey 15) ∧ view (waiting.keyDown 0) (·.mode) = some .running ∧
    view overflowed (·.mode) = some (.faulted ⟨.stackOverflow, 0xFFE⟩) ∧
    operate .reset overflowed = .next (overflowed.doReset, .done) ∧
    operate .tickTimers waiting = .next (waiting.tickTimers.1, .audioCue false) :=
  ⟨rfl, by decide, by decide, by decide, by decide, by decide, by decide, rfl, rfl⟩

/-- One state for each kind of instruction: skip taken, skip not taken, jump, call, `BNNN` under both quirks, return, other. -/
theorem witness_NextPcByKind :
    (coreAt 0x30FF).Fetches ∧ decodeWord (coreAt 0x30FF).fetchWord = some (.seByte 0 0xFF) ∧
    skipTaken (.seByte 0 0) (coreAt 0x3000) ∧ view (coreAt 0x3000) (·.mode) = some .running ∧
    ¬ skipTaken (.seByte 0 0xFF) (coreAt 0x30FF) ∧ view (coreAt 0x30FF) (·.mode) = some .running ∧
    view (coreAt 0x1FFF) (·.mode) = some .running ∧ view (coreAt 0x2FFF) (·.mode) = some .running ∧
    view (coreAt 0xBFFF) (·.mode) = some .running ∧ (coreAt 0xBFFF).params.jumpQuirk = .v0 ∧
    view (coreWith vxJump 0xBFFF) (·.mode) = some .running ∧ (15 : Reg).val = (0xFFF#12).toNat / 0x100 ∧
    view { coreAt 0x00EE with sp := 1 } (·.mode) = some .running ∧ view (coreAt 0xFF0A) (·.mode) = some (.waitingForKey 15) := by
  refine ⟨fetches_coreAt _, by decide, ?_, by decide, ?_, by decide, by decide, by decide, by decide, by decide, by decide, by decide,
    by decide, by decide⟩ <;> unfold skipTaken <;> decide

theorem witness_RaisingStepMakesNoWrites :
    (coreAt 0x00EE).mode = .running ∧ Fetchable (coreAt 0x00EE).pc ∧
      view (coreAt 0x00EE) (·.mode) = some (.faulted ⟨.stackUnderflow, 0x200⟩) ∧
    (State.reset.setPc 0x1000).mode = .running ∧ ¬ Fetchable (State.reset.setPc 0x1000).pc ∧
      view (State.reset.setPc 0x1000) (·.mode) = some (.faulted ⟨.pcOutOfRange 0x1000, 0x1000⟩) := by decide

theorem witness_StepIsRefusedOnlyForObservedTransfers :
    step (coreWith observed 0xFF55) = .refused .observedBlockTransfer ∧
    step (coreWith observed 0x1200) = .next (coreWith observed 0x1200) := by
  refine ⟨rfl, ?_⟩
  rw [step_of_fetch (i := .jpAddr 0x200) ⟨rfl, by decide⟩ (by decide)]
  rfl

theorem overflowed_inv : overflowed.Inv := by
  refine ⟨by decide, by decide, by decide, fun r hr => ?_⟩
  obtain rfl : (⟨.stackOverflow, 0xFFE⟩ : FaultRecord) = r := by simpa [overflowed] using hr
  exact ⟨rfl, by decide, rfl⟩

/-- The invariant holds of a core faulted at the last address with a full stack, and of one whose memory lists cells. -/
theorem witness_StepKeepsTheInvariant :
    (overflowed.Inv ∧ step overflowed = .next overflowed) ∧
    ((coreAt 0x612A).Inv ∧ (next (coreAt 0x612A)).isSome = true) := by
  refine ⟨⟨overflowed_inv, rfl⟩, ⟨by decide, by decide, by decide, ?_⟩, by decide⟩
  intro r hr; cases hr

theorem witness_OperationsKeepTheInvariant : overflowed.Inv ∧
    operateAll [.keyDown 0, .tickTimers, .load [], .step] overflowed =
      .next (overflowed.keyDown 0, [.done, .audioCue false, .loaded .ok, .stepped (.fault ⟨.stackOverflow, 0xFFE⟩)]) := ⟨overflowed_inv, rfl⟩

/-- Each listed part is changed by one of its writers. -/
theorem witness_PartsChangeOnlyByTheirWriters :
    exec (.ldDtVx 0) (State.reset.setReg 0 1) = .next ((State.reset.setReg 0 1).setDt 1) ∧
    exec (.ldStVx 0) (State.reset.setReg 0 1) = .next ((State.reset.setReg 0 1).setSt 1) ∧
    exec (.ldIAddr 0xFFF) State.reset = .next (State.reset.setI 0xFFF) ∧
    view (coreAt 0x2400) (fun t => (t.sp, t.stackAt 0)) = some (1, 0x202) ∧
    view ((coreAt 0xD011).setI 0) (fun t => t.pixel 0 0) = some true ∧
    view ((coreAt 0xF033).setReg 0 1) (fun t => t.readByte 2) = some 1 ∧
    view (coreAt 0xC0FF) (·.draws) = some 1 :=
  ⟨rfl, rfl, rfl, by decide, by decide, by decide, by decide⟩

theorem witness_RegistersChangeOnlyByTheirWriters :
    exec (.ldByte 15 0xFF) State.reset = .next (State.reset.setReg 15 0xFF) ∧
    (State.reset.setReg 15 0xFF).reg 15 ≠ State.reset.reg 15 ∧
    view (((coreAt 0x8014).setReg 0 0xFF).setReg 1 1) (·.reg regF) = some 1 := ⟨rfl, by decide, by decide⟩

theorem witness_ReadsSeeTheLatestWrite :
    (0xFFE : Nat) ≠ 0xFFF ∧ Memory.wf State.reset.params.font State.reset.mem ∧ (0xFFF : Nat) < 0x1000 ∧
    Memory.wf (coreAt 0x612A).params.font (coreAt 0x612A).mem := by decide

/-- `F155` at 0x1FE with `I` = 0x200, so that the next fetch is the stored word. -/
theorem witness_FetchSeesThePrecedingStore :
    (State.reset.setI 0x200).params.blockQuirk = .conventional ∧ (State.reset.setI 0x200).params.protectLowMemory = false ∧
    (State.reset.setI 0x200).dataAddr (1 : Reg).val ≤ 0xFFF ∧ (1 : Reg).val = (0 : Reg).val + 1 ∧ (1 : Reg) ≤ 1 ∧
    (State.reset.setI 0x200).pc.toNat = (State.reset.setI 0x200).dataAddr (0 : Reg).val := by decide

theorem witness_NopChangesNothing :
    (0x0FFF#16).toNat < 0x1000 ∧ 0x0FFF#16 ≠ 0x0000#16 ∧ 0x0FFF#16 ≠ 0x00E0#16 ∧ 0x0FFF#16 ≠ 0x00EE#16 ∧
    State.reset.Fetches ∧ State.reset.readByte State.reset.pc.toNat = 0 ∧
    State.reset.readByte (State.reset.pc.toNat + 1) = 0 :=
  ⟨by decide, by decide, by decide, by decide, ⟨rfl, by decide⟩, by decide, by decide⟩

/-- The reset state itself: 0x700 no-ops from 0x200. -/
theorem witness_ZeroedMemoryRunsToItsEnd : State.reset.Fetches ∧
    (∀ a, State.reset.pc.toNat ≤ a → a ≤ 0xFFF → State.reset.readByte a = 0) ∧ State.reset.pc.toNat + 2 * 0x700 = 0x1000 := by
  refine ⟨⟨rfl, by decide⟩, fun a h _ => ?_, by decide⟩
  have h : 80 ≤ a := Nat.le_trans (by decide) h
  simp [State.reset, State.resetWith, State.readByte, Memory.read, Memory.lookup, resetByte, h]

theorem witness_JumpWithOffsetWritesPc :
    State.reset.params.jumpQuirk = .v0 ∧ (State.resetWith vxJump).params.jumpQuirk = .vx ∧
    (15 : Reg).val = (0xFFF#12).toNat / 0x100 ∧ (0 : Reg).val = (0x0FF#12).toNat / 0x100 := by decide

theorem witness_CallPushesOrOverflows :
    State.reset.sp.val = (0 : Reg).val ∧ { State.reset with sp := 15 }.sp.val = (15 : Reg).val ∧ overflowed.sp = 16 := by decide

theorem witness_ReturnPopsOrUnderflows :
    { State.reset with sp := 1 }.sp.val = (0 : Reg).val + 1 ∧ overflowed.sp.val = (15 : Reg).val + 1 ∧ State.reset.sp = 0 := by decide

theorem witness_ReturnUndoesCall : { State.reset with sp := 15 }.sp.val < 16 ∧
    view { coreAt 0x2400 with sp := 15 } (fun t => ((t.setReg 0 1).sp, (t.setReg 0 1).stackAt 15)) = some (16, 0x202) := by decide

theorem witness_SkipOnRegisters : (0 : Nat) < 1 ∧ (1 : Nat) < 16 ∧ (0 : Nat) < 15 ∧ (15 : Nat) < 16 := by decide

/-- `N` = 0 whatever `I` is, and `N` = 15 up to the last byte of memory; a cell that a set bit lands on and one that none does. -/
theorem witness_DrawInvertsCoveredCells :
    (15 : Nat) < 16 ∧ ((State.reset.setI 0xFFFF).i.toNat = 0xFFFF ∧ (0 : Nat) = 0) ∧ (State.reset.setI 0xFF1).i.toNat + 15 - 1 ≤ 0xFFF ∧
    (∃ row < 5, ∃ col < 8, (State.reset.readByte (State.reset.i.toNat + row)).getLsbD (7 - col) = true ∧
      (4 : Fin 32).val = ((State.reset.reg 1).toNat + row) % 32 ∧ (3 : Fin 64).val = ((State.reset.reg 0).toNat + col) % 64) ∧
    ¬ ∃ row < 5, ∃ col < 8, (State.reset.readByte (State.reset.i.toNat + row)).getLsbD (7 - col) = true ∧
      (1 : Fin 32).val = ((State.reset.reg 1).toNat + row) % 32 ∧ (1 : Fin 64).val = ((State.reset.reg 0).toNat + col) % 64 := by
  decide

theorem witness_DrawTwiceRestores : (15 : Nat) < 16 ∧ (14 : Reg) ≠ regF ∧ (State.reset.setI 0xFF1).i.toNat + 15 - 1 ≤ 0xFFF := by decide

/-- Both registers, `X` = 0xF under both orders of the writes. -/
theorem witness_AddAndSubtractWriteFlags :
    (0 : Reg) ≠ regF ∧ (15 : Reg) = regF ∧ State.reset.params.vfOrder = .flagLast ∧
    (State.resetWith resultLast).params.vfOrder = .resultLast := by decide

theorem witness_ShiftsWriteTheBitShiftedOut :
    (State.reset.params.shiftQuirk = .vx ∧ (1 : Reg) = 1 ∨ State.reset.params.shiftQuirk = .vy ∧ (1 : Reg) = 2) ∧
    ((State.resetWith vyShift).params.shiftQuirk = .vx ∧ (2 : Reg) = 1 ∨
      (State.resetWith vyShift).params.shiftQuirk = .vy ∧ (2 : Reg) = 2) := by decide

theorem witness_IgnoredFieldsHaveNoInfluence :
    State.reset.params.shiftQuirk = .vx ∧ State.reset.params.jumpQuirk = .v0 ∧ (15 : Reg) ≠ 0 ∧
    exec (.jpV0Addr 0xFFF) State.reset = .next (State.reset.setPc 0xFFF) ∧
    exec (.jpV0Addr 0xFFF) (State.reset.setReg 15 1) = .next ((State.reset.setReg 15 1).setPc 0xFFF) :=
  ⟨rfl, rfl, by decide, rfl, rfl⟩

theorem witness_RandomByteIsMasked : (0 : Byte) = 0 ∧ (7 : Nat) < 8 := by decide

/-- The last three bytes of memory, and the first writable ones under protection. -/
theorem witness_BcdStoresThreeDigits :
    ((State.reset.setI 0xFFD).dataAddr 2 ≤ 0xFFF ∧ (State.reset.setI 0xFFD).params.protectLowMemory = false) ∧
    ((State.resetWith protecting).setI 0x200).dataAddr 2 ≤ 0xFFF ∧
    ((State.resetWith protecting).setI 0x200).params.protectLowMemory = true ∧
    0x200 ≤ ((State.resetWith protecting).setI 0x200).dataAddr 0 := by decide

theorem witness_BlockStoreStoresRegisters :
    (State.reset.setI 0xFF0).params.blockQuirk = .conventional ∧ (State.reset.setI 0xFF0).dataAddr (15 : Reg).val ≤ 0xFFF ∧
    ((State.resetWith protecting).setI 0x200).params.blockQuirk = .conventional ∧
    ((State.resetWith protecting).setI 0x200).dataAddr (15 : Reg).val ≤ 0xFFF ∧
    ((State.resetWith protecting).setI 0x200).params.protectLowMemory = true ∧
    0x200 ≤ ((State.resetWith protecting).setI 0x200).dataAddr 0 := by decide

theorem witness_BlockLoadLoadsRegisters :
    (State.reset.setI 0xFF0).params.blockQuirk = .conventional ∧ (State.reset.setI 0xFF0).dataAddr (15 : Reg).val ≤ 0xFFF ∧
    (0 : Reg) ≤ 14 ∧ (14 : Reg) < 15 := by decide

/-- `I` below and above 0xFFF. -/
theorem witness_AccessPastMemoryRaises :
    (0 : Nat) < 15 ∧ 0xFFF < (State.reset.setI 0xFF2).dataAddr (15 - 1) ∧ 0xFFF < (State.reset.setI 0xFFE).dataAddr 2 ∧
    0xFFF < (State.reset.setI 0xFF1).dataAddr (15 : Reg).val ∧ 0xFFF < (State.reset.setI 0xFFFF).dataAddr (0 : Reg).val ∧
    (State.reset.setI 0xFF1).params.blockQuirk = .conventional ∧ (State.reset.setI 0xFFFF).params.blockQuirk = .conventional := by
  decide

theorem witness_ProtectedStoreRaises :
    ((State.resetWith protecting).setI 0x1FF).params.protectLowMemory = true ∧
    ((State.resetWith protecting).setI 0x1FF).dataAddr 0 < 0x200 ∧
    ((State.resetWith protecting).setI 0x1FF).params.blockQuirk = .conventional := by
  decide

theorem witness_ObservedBlockTransferIsRefused : (State.resetWith observed).params.blockQuirk = .observedSource := rfl

/-- The last key, pressed and not, and the first value that names none. -/
theorem witness_KeySkips :
    ((State.reset.setReg 0 15).reg 0).toNat = (15 : Reg).val ∧ ((State.reset.setReg 0 15).keyDown 15).key 15 = true ∧
    (State.reset.setReg 0 15).key 15 = false ∧ 15 < ((State.reset.setReg 0 16).reg 0).toNat := by decide

theorem witness_TimerTransfers :
    exec (.ldDtVx 15) (State.reset.setReg 15 0xFF) = .next ((State.reset.setReg 15 0xFF).setDt 0xFF) ∧
    exec (.ldStVx 15) (State.reset.setReg 15 0xFF) = .next ((State.reset.setReg 15 0xFF).setSt 0xFF) ∧
    (State.reset.setDt 0xFF).dt ≠ State.reset.dt ∧ (State.reset.setSt 0xFF).st ≠ State.reset.st := ⟨rfl, rfl, by decide, by decide⟩

theorem witness_KeySettersChangeOneKey : (14 : Reg) ≠ 15 ∧ 16 ≤ 16 := by decide

/-- The longest ROM that fits, and addresses on both sides of it. -/
theorem witness_LoadCopiesTheRom : 0x200 + (List.replicate 3584 (0xAB : Byte)).length ≤ 4096 ∧
    3583 < (List.replicate 3584 (0xAB : Byte)).length ∧ (0x1FF : Nat) < 0x200 ∧
    0x200 + (List.replicate 3584 (0xAB : Byte)).length ≤ 0x1000 := by rw [List.length_replicate]; decide

theorem witness_LoadTooLargeChangesNothing : 3584 < (List.replicate 3585 (0xAB : Byte)).length := by
  rw [List.length_replicate]; decide

end Sys2Proof.Tests
end

section
/-!
PROOFS. Decoding and the opcode map (30_encoding.md R85, R86): a word that decodes is the encoding of what it decodes to, and
so selects the instruction's row; a word that a row selects decodes to an instruction of that row.
-/

namespace Sys2Proof

open Machine

variable {w p : Word} {i : Instr} {r : OpcodeRow}

/-! ## A word that decodes is the encoding of what it decodes to -/

theorem encodeNNN_of_fieldN1 {op : BitVec 4} (h : (fieldN1 w).toNat = op.toNat) : encodeNNN op (fieldNNN w) = w := by
  rw [← BitVec.eq_of_toNat_eq h, encodeNNN_fields]

theorem encodeXNN_of_fieldN1 {op : BitVec 4} (h : (fieldN1 w).toNat = op.toNat) :
    encodeXNN op (fieldX w) (fieldNN w) = w := by
  rw [← BitVec.eq_of_toNat_eq h, encodeXNN_fields]

theorem encodeXYN_of_fieldN1 {op n : BitVec 4} (h : (fieldN1 w).toNat = op.toNat) (hn : fieldN w = n) :
    encodeXYN op (fieldX w) (fieldY w) n = w := by
  rw [← BitVec.eq_of_toNat_eq h, ← hn, encodeXYN_fields]

theorem encode_of_decodeFamily0 (h : decodeFamily0 w = some i) : encode i = w := by
  unfold decodeFamily0 at h
  split_ifs at h with h1 h2 h3 <;> cases h
  · exact h1.symm
  · exact h2.symm
  · exact h3.symm

theorem encode_of_decodeFamily8 {x y : Reg} {n : BitVec 4} (h : decodeFamily8 x y n = some i) :
    encode i = encodeXYN 0x8#4 x y n := by
  unfold decodeFamily8 at h
  split at h <;> cases h
  all_goals
    rename_i hn
    exact congrArg (encodeXYN 0x8#4 x y) (BitVec.eq_of_toNat_eq hn.symm)

theorem encode_of_decodeFamilyE {x : Reg} {nn : Byte} (h : decodeFamilyE x nn = some i) :
    encode i = encodeXNN 0xE#4 x nn := by
  unfold decodeFamilyE at h
  repeat' split at h
  all_goals cases h <;> subst nn <;> rfl

theorem encode_of_decodeFamilyF {x : Reg} {nn : Byte} (h : decodeFamilyF x nn = some i) :
    encode i = encodeXNN 0xF#4 x nn := by
  unfold decodeFamilyF at h
  repeat' split at h
  all_goals cases h <;> subst nn <;> rfl

theorem encode_of_decodeWord (h : decodeWord w = some i) : encode i = w := by
  unfold decodeWord at h
  split at h
  case h_1 => exact encode_of_decodeFamily0 h
  case h_2 hop | h_3 hop | h_11 hop | h_12 hop => cases h; exact encodeNNN_of_fieldN1 hop
  case h_4 hop | h_5 hop | h_7 hop | h_8 hop | h_13 hop => cases h; exact encodeXNN_of_fieldN1 hop
  case h_6 hop | h_10 hop =>
    split at h <;> cases h
    exact encodeXYN_of_fieldN1 hop ‹_›
  case h_9 hop => rw [encode_of_decodeFamily8 h, encodeXYN_of_fieldN1 hop rfl]
  case h_14 hop => cases h; exact encodeXYN_of_fieldN1 hop (by simp)
  case h_15 hop => rw [encode_of_decodeFamilyE h, encodeXNN_of_fieldN1 hop]
  case h_16 =>
    have hop : (fieldN1 w).toNat = 15 := by have := (fieldN1 w).isLt; grind
    rw [encode_of_decodeFamilyF h, encodeXNN_of_fieldN1 hop]

/-! ## The row of a decoded word selects it -/

theorem Instr.row_selects_encode (i : Instr) : i.row.selects (encode i) = true := by
  cases i with
  | nop => exact Laws.EncodesInRow.nop
  | cls => exact Laws.EncodesInRow.cls
  | ret => exact Laws.EncodesInRow.ret
  | jpAddr | callAddr | ldIAddr | jpV0Addr => exact Laws.EncodesInRow.nnnRow _ _
  | seByte | sneByte | ldByte | addByte | rndByte => exact Laws.EncodesInRow.xnnRow _ _ _
  | drw => exact Laws.EncodesInRow.xynRow _ _ _ _
  | seReg | sneReg | ldReg | orReg | andReg | xorReg | addReg | subReg | shrReg | subnReg | shlReg =>
    exact Laws.EncodesInRow.xyfRow _ _ _ _
  | skp | sknp | ldVxDt | ldDtVx | ldStVx | addIVx | ldFVx | ldBVx | ldMemVx | ldVxMem | ldVxK =>
    exact Laws.EncodesInRow.xffRow _ _ _

theorem Instr.row_selects_of_decodeWord (h : decodeWord w = some i) : i.row.selects w = true :=
  encode_of_decodeWord h ▸ i.row_selects_encode

theorem Instr.row_mem_opcodeRows (i : Instr) : i.row ∈ opcodeRows := by
  cases i <;> exact List.mem_of_elem_eq_true rfl

/-! ## A word that a row selects decodes to an instruction of that row -/

/-- The row of the instruction that a word decodes to. -/
def decodedRow (w : Word) : Option OpcodeRow := (decodeWord w).map Instr.row

/-- The pattern of every row is a word of the row. -/
theorem decodedRow_pattern : ∀ r ∈ opcodeRows, decodedRow r.pattern = some r := by decide

/-- The four masks of the opcode map, each with the families it is used in (30_encoding.md R82, R85). -/
theorem opcodeRows_mask : ∀ r ∈ opcodeRows,
    r.mask = 0xFFFF#16 ∨
    r.mask = 0xF000#16 ∧ fieldN1 r.pattern ∈ [0x1#4, 0x2#4, 0x3#4, 0x4#4, 0x6#4, 0x7#4, 0xA#4, 0xB#4, 0xC#4, 0xD#4] ∨
    r.mask = 0xF00F#16 ∧ fieldN1 r.pattern ∈ [0x5#4, 0x8#4, 0x9#4] ∨
    r.mask = 0xF0FF#16 ∧ fieldN1 r.pattern ∈ [0xE#4, 0xF#4] := by decide

theorem decodeFamily8_row (x y x' y' : Reg) (n : BitVec 4) :
    (decodeFamily8 x y n).map Instr.row = (decodeFamily8 x' y' n).map Instr.row := by
  unfold decodeFamily8; split <;> rfl

theorem decodeFamilyE_row (x x' : Reg) (nn : Byte) :
    (decodeFamilyE x nn).map Instr.row = (decodeFamilyE x' nn).map Instr.row := by
  simp only [decodeFamilyE, apply_ite (Option.map Instr.row)]; rfl

theorem decodeFamilyF_row (x x' : Reg) (nn : Byte) :
    (decodeFamilyF x nn).map Instr.row = (decodeFamilyF x' nn).map Instr.row := by
  simp only [decodeFamilyF, apply_ite (Option.map Instr.row)]; rfl

/-- In the families of formats NNN, XNN and XYN the first nibble settles the row. -/
theorem decodedRow_of_fieldN1 (hop : fieldN1 w = fieldN1 p)
    (hp : fieldN1 p ∈ [0x1#4, 0x2#4, 0x3#4, 0x4#4, 0x6#4, 0x7#4, 0xA#4, 0xB#4, 0xC#4, 0xD#4]) :
    decodedRow w = decodedRow p := by
  simp only [List.mem_cons, List.not_mem_nil, or_false] at hp
  rcases hp with hp | hp | hp | hp | hp | hp | hp | hp | hp | hp <;>
    simp only [decodedRow, decodeWord, hop, hp] <;> rfl

/-- In the families of format XYF the first and the last nibble settle the row. -/
theorem decodedRow_of_fieldN (hop : fieldN1 w = fieldN1 p) (hn : fieldN w = fieldN p)
    (hp : fieldN1 p ∈ [0x5#4, 0x8#4, 0x9#4]) : decodedRow w = decodedRow p := by
  simp only [List.mem_cons, List.not_mem_nil, or_false] at hp
  obtain hp | hp | hp := hp <;> simp [decodedRow, decodeWord, hop, hp, hn]
  · split <;> rfl
  · exact decodeFamily8_row _ _ _ _ _
  · split <;> rfl

/-- In the families of format XFF the first nibble and the low byte settle the row. -/
theorem decodedRow_of_fieldNN (hop : fieldN1 w = fieldN1 p) (hnn : fieldNN w = fieldNN p)
    (hp : fieldN1 p ∈ [0xE#4, 0xF#4]) : decodedRow w = decodedRow p := by
  simp only [List.mem_cons, List.not_mem_nil, or_false] at hp
  obtain hp | hp := hp <;> simp [decodedRow, decodeWord, hop, hp, hnn]
  · exact decodeFamilyE_row _ _ _
  · exact decodeFamilyF_row _ _ _

theorem decodedRow_of_selects (hr : r ∈ opcodeRows) (h : r.selects w = true) : decodedRow w = some r := by
  have hw : w &&& r.mask = r.pattern := by simpa [OpcodeRow.selects] using h
  rw [← decodedRow_pattern r hr]
  obtain hm | ⟨hm, hp⟩ | ⟨hm, hp⟩ | ⟨hm, hp⟩ := opcodeRows_mask r hr <;> rw [hm] at hw
  · rw [← hw, and_maskFIX]
  · refine decodedRow_of_fieldN1 ?_ hp
    rw [← hw, and_maskNNN, fieldN1_encodeNNN]
  · refine decodedRow_of_fieldN ?_ ?_ hp <;> rw [← hw, and_maskXYF]
    · rw [fieldN1_encodeXYN]
    · rw [fieldN_encodeXYN]
  · refine decodedRow_of_fieldNN ?_ ?_ hp <;> rw [← hw, and_maskXFF]
    · rw [fieldN1_encodeXNN]
    · rw [fieldNN_encodeXNN]

/-! ## The decoder and the table select alike (30_encoding.md R86) -/

/-- The rows that select a word that decodes: its instruction's, and no other. -/
theorem selects_iff_of_decodeWord (h : decodeWord w = some i) (hr : r ∈ opcodeRows) : r.selects w = true ↔ r = i.row := by
  constructor
  · intro hs
    have hd : decodedRow w = some r := decodedRow_of_selects hr hs
    simpa [decodedRow, h] using hd.symm
  · rintro rfl
    exact Instr.row_selects_of_decodeWord h

/-- A word decodes to nothing exactly when no row selects it. -/
theorem decodeWord_eq_none_iff : decodeWord w = none ↔ ∀ r ∈ opcodeRows, r.selects w = false := by
  constructor
  · intro h r hr
    by_contra hs
    have hd : decodedRow w = some r := decodedRow_of_selects hr (by simpa using hs)
    simp [decodedRow, h] at hd
  · intro h
    cases hd : decodeWord w with
    | none => rfl
    | some i => simpa [Instr.row_selects_of_decodeWord hd] using h i.row i.row_mem_opcodeRows

/-- Settles O3: the decoder and the table of R85 select alike, and the fetching step follows the decoder. -/
theorem decoderSelectsAsTheTable : Obligations.DecoderSelectsAsTheTable := by
  unfold Obligations.DecoderSelectsAsTheTable
  refine ⟨fun w => ?_, by decide, by decide, fun s i hs h => step_of_fetch hs h, fun s hs h => ?_⟩
  · cases hd : decodeWord w with
    | some i => exact .inl ⟨i, rfl, fun r hr => ⟨selects_iff_of_decodeWord hd hr, i.row_mem_opcodeRows⟩⟩
    | none => exact .inr ⟨rfl, decodeWord_eq_none_iff.1 hd⟩
  · exact ⟨_, step_of_illegal hs (decodeWord_eq_none_iff.2 h), s.pc, rfl⟩

end Sys2Proof
end

section
/-!
PROOFS. The skips that compare registers and immediates (41_flow.md R124-R127): their words decode to them, and each one answers
the state with only `pc` changed, by 2 when its comparison holds.
-/

namespace Sys2Proof

open Machine

variable {i : Instr} {s : State} {c : Bool}

/-! ## The words of the skips -/

@[simp] theorem decodeWord_encodeXNN_3 (x : Reg) (nn : Byte) : decodeWord (encodeXNN 0x3#4 x nn) = some (.seByte x nn) := by
  simp [decodeWord]

@[simp] theorem decodeWord_encodeXNN_4 (x : Reg) (nn : Byte) : decodeWord (encodeXNN 0x4#4 x nn) = some (.sneByte x nn) := by
  simp [decodeWord]

/-- Family 5 has the one row `5XY0`; any other low nibble is illegal (30_encoding.md R87). -/
@[simp] theorem decodeWord_encodeXYN_5 (x y : Reg) (n : BitVec 4) :
    decodeWord (encodeXYN 0x5#4 x y n) = if n = 0x0#4 then some (.seReg x y) else none := by
  simp [decodeWord]

/-- Family 9 has the one row `9XY0`; any other low nibble is illegal (30_encoding.md R87). -/
@[simp] theorem decodeWord_encodeXYN_9 (x y : Reg) (n : BitVec 4) :
    decodeWord (encodeXYN 0x9#4 x y n) = if n = 0x0#4 then some (.sneReg x y) else none := by
  simp [decodeWord]

/-! ## What a skip does (40_pipeline.md R108) -/

theorem Machine.State.setPc_unchangedExcept (s : State) (a : Word) : UnchangedExcept [.pc] s (s.setPc a) := by
  intro p hp
  cases p with
  | pc => exact absurd (List.mem_singleton_self _) hp
  | stack => exact ⟨rfl, fun _ => rfl⟩
  | regs | keypad | memory => exact fun _ => rfl
  | display => exact fun _ _ => rfl
  | index | delay | sound | mode | params | draws => rfl

/-- An instruction that is the skip primitive on a condition changes `pc` alone, by 2 when the condition holds. -/
theorem completes_skipIf (h : exec i s = .next (s.skipIf c)) :
    Completes i s [.pc] fun t => t.pc = if c then s.pc + 2 else s.pc := by
  rw [State.skipIf_eq] at h
  exact ⟨_, h, rfl, State.setPc_unchangedExcept s _⟩

theorem completes_seByte (x : Reg) (nn : Byte) (s : State) :
    Completes (.seByte x nn) s [.pc] fun t => t.pc = if s.reg x = nn then s.pc + 2 else s.pc := by
  simpa using completes_skipIf (i := .seByte x nn) (c := s.reg x == nn) rfl

theorem completes_sneByte (x : Reg) (nn : Byte) (s : State) :
    Completes (.sneByte x nn) s [.pc] fun t => t.pc = if s.reg x = nn then s.pc else s.pc + 2 := by
  simpa using completes_skipIf (i := .sneByte x nn) (c := s.reg x != nn) rfl

theorem completes_seReg (x y : Reg) (s : State) :
    Completes (.seReg x y) s [.pc] fun t => t.pc = if s.reg x = s.reg y then s.pc + 2 else s.pc := by
  simpa using completes_skipIf (i := .seReg x y) (c := s.reg x == s.reg y) rfl

theorem completes_sneReg (x y : Reg) (s : State) :
    Completes (.sneReg x y) s [.pc] fun t => t.pc = if s.reg x = s.reg y then s.pc else s.pc + 2 := by
  simpa using completes_skipIf (i := .sneReg x y) (c := s.reg x != s.reg y) rfl

/-- Settles O30: families 5 and 9 have the row with low nibble 0 alone, and both instructions are the skip primitive. -/
theorem skipOnRegisters : Obligations.SkipOnRegisters := by
  unfold Obligations.SkipOnRegisters
  refine fun x y => ⟨?_, ?_, fun n h0 h16 => ?_, fun s => ⟨completes_seReg x y s, completes_sneReg x y s⟩⟩
  · simp [wordXYN_eq]
  · simp [wordXYN_eq]
  · have hn : BitVec.ofNat 4 n ≠ 0#4 := by bv_omega
    simp [wordXYN_eq _ x y h16, hn]

/-- Settles O29: the words decode by their format, and both instructions are the skip primitive. -/
theorem skipOnImmediate : Obligations.SkipOnImmediate := by
  unfold Obligations.SkipOnImmediate
  refine fun x nn => ⟨?_, ?_, fun s => ⟨completes_seByte x nn s, completes_sneByte x nn s⟩⟩
  · simp [wordXNN_eq]
  · simp [wordXNN_eq]

end Sys2Proof
end

section
/-!
PROOFS. Clearing the display (42_display.md R141): `00E0` decodes to the clear, which answers the state with every cell unset and
every other part as it was.
-/

namespace Sys2Proof

open Machine

/-- Replacing the framebuffer changes the display alone (00_scope.md R17). -/
theorem Machine.State.setFb_unchangedExcept (s : State) (fb : FrameBuffer) : UnchangedExcept [.display] s (s.setFb fb) := by
  intro p hp
  cases p with
  | display => exact absurd (List.mem_singleton_self _) hp
  | stack => exact ⟨State.setFb_sp s fb, State.setFb_stackAt s fb⟩
  | regs => exact State.setFb_reg s fb
  | keypad => exact State.setFb_key s fb
  | memory => exact State.setFb_readByte s fb
  | pc | index | delay | sound | mode | params | draws => rfl

@[simp] theorem exec_cls (s : State) : exec .cls s = .next (s.setFb FrameBuffer.clear) := rfl

theorem completes_cls (s : State) : Completes .cls s [.display] fun t => ∀ y x, t.pixel y x = false := by
  refine ⟨_, exec_cls s, fun y x => ?_, State.setFb_unchangedExcept s _⟩
  rw [State.setFb_pixel, FrameBuffer.cell_clear]

/-- Settles O31: `00E0` replaces the framebuffer, whatever it held, by the one whose cells are all unset. -/
theorem clearUnsetsEveryCell : Obligations.ClearUnsetsEveryCell := by
  unfold Obligations.ClearUnsetsEveryCell
  exact ⟨by decide, completes_cls⟩

end Sys2Proof
end

section
/-!
PROOFS. The ALU instructions that write one register and no flag (43_alu.md R152-R157): their words decode to them, and each one
answers the state with only its destination register changed.
-/

namespace Sys2Proof

open Machine

variable {i : Instr} {s t : State}

/-! ## The words of families 6, 7 and 8 -/

@[simp] theorem decodeWord_encodeXNN_6 (x : Reg) (nn : Byte) : decodeWord (encodeXNN 0x6#4 x nn) = some (.ldByte x nn) := by
  simp [decodeWord]

@[simp] theorem decodeWord_encodeXNN_7 (x : Reg) (nn : Byte) : decodeWord (encodeXNN 0x7#4 x nn) = some (.addByte x nn) := by
  simp [decodeWord]

/-- In family 8 the low nibble selects the row (30_encoding.md R85). -/
@[simp] theorem decodeWord_encodeXYN_8 (x y : Reg) (n : BitVec 4) :
    decodeWord (encodeXYN 0x8#4 x y n) = decodeFamily8 x y n := by
  simp [decodeWord]

theorem decodeWord_wordXYN_8 (x y : Reg) {n : Nat} (hn : n < 16) :
    decodeWord (wordXYN 0x8 x y n) = decodeFamily8 x y (BitVec.ofNat 4 n) := by
  rw [wordXYN_eq _ x y hn, decodeWord_encodeXYN_8]

/-! ## Writing one register (00_scope.md R17) -/

theorem Machine.Completes.mono {ps : List Part} {P Q : State → Prop} (h : Completes i s ps P) (hPQ : ∀ t, P t → Q t) :
    Completes i s ps Q := by
  obtain ⟨t, he, hP, hu⟩ := h
  exact ⟨t, he, hPQ t hP, hu⟩

/-- A state that differs in its register file alone has changed the registers alone. -/
theorem unchangedExcept_regs_of_eq (h : t = { s with v := t.v }) : UnchangedExcept [.regs] s t := by
  rw [h]
  intro p hp
  cases p with
  | regs => exact absurd (List.mem_singleton_self _) hp
  | stack => exact ⟨rfl, fun _ => rfl⟩
  | keypad | memory => exact fun _ => rfl
  | display => exact fun _ _ => rfl
  | index | pc | delay | sound | mode | params | draws => rfl

theorem Machine.State.setReg_regsUnchangedExcept (s : State) (x : Reg) (b : Byte) : RegsUnchangedExcept [x] s (s.setReg x b) :=
  fun _ hr => State.setReg_reg_ne s (List.ne_of_not_mem_cons hr) b

/-- An instruction that is the write of one register changes that register alone. -/
theorem completes_setReg {x : Reg} {b : Byte} (h : exec i s = .next (s.setReg x b)) :
    Completes i s [.regs] fun t => t.reg x = b ∧ RegsUnchangedExcept [x] s t :=
  ⟨_, h, ⟨State.setReg_reg_same s x b, State.setReg_regsUnchangedExcept s x b⟩, unchangedExcept_regs_of_eq rfl⟩

/-! ## Immediates, the copy and the bitwise operations -/

theorem completes_ldByte (x : Reg) (nn : Byte) (s : State) :
    Completes (.ldByte x nn) s [.regs] fun t => t.reg x = nn ∧ RegsUnchangedExcept [x] s t :=
  completes_setReg rfl

theorem completes_addByte (x : Reg) (nn : Byte) (s : State) :
    Completes (.addByte x nn) s [.regs] fun t =>
      (t.reg x).toNat = ((s.reg x).toNat + nn.toNat) % 256 ∧ RegsUnchangedExcept [x] s t := by
  refine (completes_setReg (b := s.reg x + nn) rfl).mono fun t ⟨hx, hr⟩ => ⟨?_, hr⟩
  rw [hx, BitVec.toNat_add]

theorem completes_ldReg (x y : Reg) (s : State) :
    Completes (.ldReg x y) s [.regs] fun t => t.reg x = s.reg y ∧ RegsUnchangedExcept [x] s t :=
  completes_setReg rfl

theorem completes_orReg (x y : Reg) (s : State) :
    Completes (.orReg x y) s [.regs] fun t =>
      (∀ k < 8, (t.reg x).getLsbD k = ((s.reg x).getLsbD k || (s.reg y).getLsbD k)) ∧ RegsUnchangedExcept [x] s t := by
  refine (completes_setReg (b := s.reg x ||| s.reg y) rfl).mono fun t ⟨hx, hr⟩ => ⟨fun k _ => ?_, hr⟩
  rw [hx, BitVec.getLsbD_or]

theorem completes_andReg (x y : Reg) (s : State) :
    Completes (.andReg x y) s [.regs] fun t =>
      (∀ k < 8, (t.reg x).getLsbD k = ((s.reg x).getLsbD k && (s.reg y).getLsbD k)) ∧ RegsUnchangedExcept [x] s t := by
  refine (completes_setReg (b := s.reg x &&& s.reg y) rfl).mono fun t ⟨hx, hr⟩ => ⟨fun k _ => ?_, hr⟩
  rw [hx, BitVec.getLsbD_and]

theorem completes_xorReg (x y : Reg) (s : State) :
    Completes (.xorReg x y) s [.regs] fun t =>
      (∀ k < 8, (t.reg x).getLsbD k = ((s.reg x).getLsbD k ^^ (s.reg y).getLsbD k)) ∧ RegsUnchangedExcept [x] s t := by
  refine (completes_setReg (b := s.reg x ^^^ s.reg y) rfl).mono fun t ⟨hx, hr⟩ => ⟨fun k _ => ?_, hr⟩
  rw [hx, BitVec.getLsbD_xor]

/-- Settles O34: the words decode by their format, and both instructions write their register alone. -/
theorem immediateLoadAndAdd : Obligations.ImmediateLoadAndAdd := by
  unfold Obligations.ImmediateLoadAndAdd
  refine fun x nn => ⟨?_, ?_, fun s => ⟨completes_ldByte x nn s, completes_addByte x nn s⟩⟩
  · simp [wordXNN_eq]
  · simp [wordXNN_eq]

/-- Settles O35: the low nibble selects the operation, and each one writes its destination alone. -/
theorem registerCopyAndLogic : Obligations.RegisterCopyAndLogic := by
  unfold Obligations.RegisterCopyAndLogic
  refine fun x y => ⟨?_, ?_, ?_, ?_, fun s =>
    ⟨completes_ldReg x y s, completes_orReg x y s, completes_andReg x y s, completes_xorReg x y s⟩⟩ <;>
    exact decodeWord_wordXYN_8 x y (by decide)

end Sys2Proof
end

section
/-!
PROOFS. The ALU instructions that write a result and a flag (43_alu.md R158-R162): each one is the two writes of R151 in the order
`VF_ORDER` gives, of a result and a flag computed from the values before the instruction.
-/

namespace Sys2Proof

open Machine

variable {i : Instr} {s : State}

/-! ## The flags and the difference as numbers (43_alu.md R150) -/

theorem Machine.flagByte_toNat (b : Bool) : (flagByte b).toNat = if b then 1 else 0 := by
  cases b <;> rfl

theorem Machine.carryFlag_toNat (a b : Byte) : (carryFlag a b).toNat = if 255 < a.toNat + b.toNat then 1 else 0 := by
  simp [carryFlag, flagByte_toNat]

theorem Machine.noBorrowFlag_toNat (a b : Byte) : (noBorrowFlag a b).toNat = if b.toNat ≤ a.toNat then 1 else 0 := by
  simp [noBorrowFlag, flagByte_toNat]

theorem Machine.shrOut_toNat (src : Byte) : (shrOut src).toNat = src.toNat % 2 := by
  rw [shrOut, BitVec.toNat_and]
  exact Nat.and_one_is_mod _

theorem Machine.shlOut_toNat (src : Byte) : (shlOut src).toNat = src.toNat / 128 := by
  rw [shlOut, BitVec.toNat_ushiftRight, Nat.shiftRight_eq_div_pow]

/-- The difference is taken modulo 256 (43_alu.md R159, R161). -/
theorem byte_sub_toNat (a b : Byte) : (a - b).toNat = (a.toNat + 256 - b.toNat) % 256 := by
  bv_omega

theorem byte_shiftRight_one_toNat (b : Byte) : (b >>> 1).toNat = b.toNat / 2 := by
  rw [BitVec.toNat_ushiftRight, Nat.shiftRight_eq_div_pow, pow_one]

theorem byte_shiftLeft_one_toNat (b : Byte) : (b <<< 1).toNat = b.toNat * 2 % 256 := by
  rw [BitVec.toNat_shiftLeft, Nat.shiftLeft_eq, pow_one]

/-! ## The two writes (43_alu.md R151) -/

/-- `writeback` is what the statements call writing a result and a flag, under both orders. -/
theorem Machine.State.writeback_writesResultAndFlag (s : State) (x : Reg) (res f : Byte) :
    WritesResultAndFlag x res.toNat f.toNat s (s.writeback x res f) := by
  refine ⟨fun hx => ⟨?_, ?_⟩, fun hx ho => ?_, fun hx ho => ?_, fun r hr => ?_, ?_⟩
  · simp [State.writeback_reg, hx]
  · simp [State.writeback_reg, hx]
  · simp [State.writeback_reg, ho]
  · simp [State.writeback_reg, hx, ho]
  · obtain ⟨hrx, hrF⟩ : r ≠ x ∧ r ≠ regF := by simpa using hr
    simp [State.writeback_reg, hrx, hrF]
  · exact unchangedExcept_regs_of_eq (State.writeback_eq s x res f)

/-- An instruction that is the two writes of a result and a flag worth `m` and `n` writes these and nothing else. -/
theorem exec_writesResultAndFlag {x : Reg} {res f : Byte} {m n : Nat} (h : exec i s = .next (s.writeback x res f))
    (hres : res.toNat = m) (hf : f.toNat = n) : ∃ t, exec i s = .next t ∧ WritesResultAndFlag x m n s t := by
  subst hres hf
  exact ⟨_, h, State.writeback_writesResultAndFlag s x res f⟩

/-- Settles O36: each of the three is the two writes, of the sum and the carry or of a difference and its no-borrow. -/
theorem addAndSubtractWriteFlags : Obligations.AddAndSubtractWriteFlags := by
  unfold Obligations.AddAndSubtractWriteFlags
  refine fun x y => ⟨decodeWord_wordXYN_8 x y (by decide), decodeWord_wordXYN_8 x y (by decide),
    decodeWord_wordXYN_8 x y (by decide), fun s => ⟨?_, ?_, ?_⟩⟩
  · exact exec_writesResultAndFlag rfl (BitVec.toNat_add _ _) (carryFlag_toNat _ _)
  · exact exec_writesResultAndFlag rfl (byte_sub_toNat _ _) (noBorrowFlag_toNat _ _)
  · exact exec_writesResultAndFlag rfl (byte_sub_toNat _ _) (noBorrowFlag_toNat _ _)

/-! ## The shift source (43_alu.md R160, R162) -/

theorem Machine.State.shiftSource_eq {x y z : Reg}
    (hz : s.params.shiftQuirk = .vx ∧ z = x ∨ s.params.shiftQuirk = .vy ∧ z = y) : s.shiftSource x y = s.reg z := by
  obtain ⟨hq, rfl⟩ | ⟨hq, rfl⟩ := hz <;> rw [State.shiftSource, hq]

/-- Settles O37: each shift is the two writes, of the shifted source that `SHIFT_QUIRK` selects and the bit that leaves it. -/
theorem shiftsWriteTheBitShiftedOut : Obligations.ShiftsWriteTheBitShiftedOut := by
  unfold Obligations.ShiftsWriteTheBitShiftedOut
  refine fun x y => ⟨decodeWord_wordXYN_8 x y (by decide), decodeWord_wordXYN_8 x y (by decide), fun s z hz => ?_⟩
  rw [← State.shiftSource_eq hz]
  constructor
  · exact exec_writesResultAndFlag rfl (byte_shiftRight_one_toNat _) (shrOut_toNat _)
  · exact exec_writesResultAndFlag rfl (byte_shiftLeft_one_toNat _) (shlOut_toNat _)

end Sys2Proof
end

section
/-!
PROOFS. The instructions that load the index (44_index_memory.md R170, R172): their words decode to them, and each one answers the
state with only `I` changed, to the address field or to five times the register.
-/

namespace Sys2Proof

open Machine

variable {i : Instr} {s : State}

/-! ## The words of families A and F -/

@[simp] theorem decodeWord_encodeNNN_A (nnn : AddrField) : decodeWord (encodeNNN 0xA#4 nnn) = some (.ldIAddr nnn) := by
  simp [decodeWord]

/-- In family F the low byte selects the row (30_encoding.md R85). -/
@[simp] theorem decodeWord_encodeXNN_F (x : Reg) (nn : Byte) : decodeWord (encodeXNN 0xF#4 x nn) = decodeFamilyF x nn := by
  simp [decodeWord]

theorem decodeWord_wordXNN_F (x : Reg) (nn : Byte) : decodeWord (wordXNN 0xF x nn) = decodeFamilyF x nn := by
  rw [wordXNN_eq, decodeWord_encodeXNN_F]

/-! ## Writing the index (00_scope.md R17) -/

theorem Machine.State.setI_unchangedExcept (s : State) (a : Word) : UnchangedExcept [.index] s (s.setI a) := by
  intro p hp
  cases p with
  | index => exact absurd (List.mem_singleton_self _) hp
  | stack => exact ⟨State.setI_sp s a, State.setI_stackAt s a⟩
  | regs => exact State.setI_reg s a
  | keypad => exact State.setI_key s a
  | display => exact State.setI_pixel s a
  | memory => exact State.setI_readByte s a
  | pc | delay | sound | mode | params | draws => rfl

/-- An instruction that is the write of a value worth `m` to `I` changes `I` alone. -/
theorem completes_setI {a : Word} {m : Nat} (h : exec i s = .next (s.setI a)) (ha : a.toNat = m) :
    Completes i s [.index] fun t => t.i.toNat = m :=
  ⟨_, h, ha, State.setI_unchangedExcept s a⟩

/-- The glyph address is at most 1275, so it does not wrap (44_index_memory.md R172). -/
theorem Machine.glyphAddr_toNat (b : Byte) : (glyphAddr b).toNat = b.toNat * 5 := by
  rw [glyphAddr]
  bv_omega

theorem completes_ldIAddr (nnn : AddrField) (s : State) :
    Completes (.ldIAddr nnn) s [.index] fun t => t.i.toNat = nnn.toNat :=
  completes_setI rfl (addrOperand_toNat nnn)

theorem completes_ldFVx (x : Reg) (s : State) :
    Completes (.ldFVx x) s [.index] fun t => t.i.toNat = (s.reg x).toNat * 5 :=
  completes_setI rfl (glyphAddr_toNat (s.reg x))

/-- Settles O40: the words decode by their format, and both instructions write `I` alone, with a value that needs no mask. -/
theorem indexLoads : Obligations.IndexLoads := by
  unfold Obligations.IndexLoads
  refine ⟨fun nnn => ⟨?_, completes_ldIAddr nnn⟩, fun x => ⟨?_, completes_ldFVx x⟩⟩
  · simp [wordNNN_eq]
  · exact decodeWord_wordXNN_F x 0x29

end Sys2Proof
end

section
/-!
PROOFS. The timers (45_keys_timers.md R182, R184, R185): `FX07`, `FX15` and `FX18` are one write each, of a register, of `DT` or of
`ST`, and no other instruction writes a timer.
-/

namespace Sys2Proof

open Machine

variable {i : Instr} {s t : State}

/-! ## Writing a timer (00_scope.md R17) -/

/-- A state that differs in its timers alone has changed the timers alone, and only those whose value changed. -/
theorem unchangedExcept_of_timers_eq {ps : List Part} (h : t = { s with dt := t.dt, st := t.st })
    (hd : .delay ∈ ps ∨ t.dt = s.dt) (hs : .sound ∈ ps ∨ t.st = s.st) : UnchangedExcept ps s t := by
  intro p hp
  cases p with
  | delay => exact hd.resolve_left hp
  | sound => exact hs.resolve_left hp
  | stack => rw [h]; exact ⟨rfl, fun _ => rfl⟩
  | regs | keypad | memory => rw [h]; exact fun _ => rfl
  | display => rw [h]; exact fun _ _ => rfl
  | index | pc | mode | params | draws => rw [h]; rfl

@[simp] theorem exec_ldVxDt (x : Reg) (s : State) : exec (.ldVxDt x) s = .next (s.setReg x s.dt) := rfl
@[simp] theorem exec_ldDtVx (x : Reg) (s : State) : exec (.ldDtVx x) s = .next (s.setDt (s.reg x)) := rfl
@[simp] theorem exec_ldStVx (x : Reg) (s : State) : exec (.ldStVx x) s = .next (s.setSt (s.reg x)) := rfl

theorem completes_ldVxDt (x : Reg) (s : State) :
    Completes (.ldVxDt x) s [.regs] fun t => t.reg x = s.dt ∧ RegsUnchangedExcept [x] s t :=
  completes_setReg (exec_ldVxDt x s)

theorem completes_ldDtVx (x : Reg) (s : State) : Completes (.ldDtVx x) s [.delay] fun t => t.dt = s.reg x :=
  ⟨_, exec_ldDtVx x s, State.setDt_dt s _,
    unchangedExcept_of_timers_eq rfl (.inl (List.mem_singleton_self _)) (.inr (State.setDt_st s _))⟩

theorem completes_ldStVx (x : Reg) (s : State) : Completes (.ldStVx x) s [.sound] fun t => t.st = s.reg x :=
  ⟨_, exec_ldStVx x s, State.setSt_st s _,
    unchangedExcept_of_timers_eq rfl (.inr (State.setSt_dt s _)) (.inl (List.mem_singleton_self _))⟩

/-! ## Answers that leave both timers alone -/

/-- If the answer is a next state, that state has the timers of `s`. -/
def KeepsTimers (s : State) (r : Answer) : Prop := ∀ t, r = .next t → t.dt = s.dt ∧ t.st = s.st

theorem KeepsTimers.next (hd : t.dt = s.dt) (hs : t.st = s.st) : KeepsTimers s (.next t) := by
  rintro _ ⟨⟩
  exact ⟨hd, hs⟩

theorem KeepsTimers.raise (s : State) (k : FaultKind) : KeepsTimers s (s.raise k) := .next rfl rfl

theorem KeepsTimers.checked {r : Answer} (h : KeepsTimers s r) : ∀ c : Option FaultKind, KeepsTimers s (s.checked c r)
  | none => h
  | some k => .raise s k

theorem KeepsTimers.conventionalOnly {r : Answer} (h : KeepsTimers s r) : KeepsTimers s (s.conventionalOnly r) := by
  unfold State.conventionalOnly
  cases s.params.blockQuirk with
  | conventional => exact h
  | observedSource => rintro _ ⟨⟩

theorem KeepsTimers.skipIf (s : State) (c : Bool) : KeepsTimers s (.next (s.skipIf c)) := by
  rw [State.skipIf_eq]
  exact .next rfl rfl

theorem KeepsTimers.skipOnKey (s : State) (x : Reg) (pressed : Bool) : KeepsTimers s (s.skipOnKey x pressed) := by
  obtain ⟨-, e⟩ | ⟨k, -, e⟩ := s.skipOnKey_cases x pressed <;> rw [e]
  · exact .raise s _
  · exact .skipIf s _

theorem KeepsTimers.writeback (s : State) (x : Reg) (res f : Byte) : KeepsTimers s (.next (s.writeback x res f)) :=
  .next (State.writeback_dt s x res f) (State.writeback_st s x res f)

theorem KeepsTimers.storeAtI (s : State) (bytes : List Byte) : KeepsTimers s (s.storeAtI bytes) :=
  .checked (.checked (.next (by simp) (by simp)) _) _

theorem KeepsTimers.execRet (s : State) : KeepsTimers s (execRet s) := by
  obtain ⟨-, e⟩ | ⟨j, p, -, -, e⟩ := execRet_cases s <;> rw [e]
  · exact .raise s _
  · exact .next rfl rfl

theorem KeepsTimers.execCallAddr (nnn : AddrField) (s : State) : KeepsTimers s (execCallAddr nnn s) := by
  obtain ⟨-, e⟩ | ⟨-, t, ht, e⟩ := execCallAddr_cases nnn s <;> rw [e]
  · exact .raise s _
  · obtain ⟨-, -, -, hpush⟩ := State.push_some ht
    rw [hpush]
    exact .next rfl rfl

/-- Every instruction but `FX15` and `FX18` leaves both timers alone (10_state.md R29, R30). -/
theorem exec_keepsTimers (s : State) (hd : ∀ x, i ≠ .ldDtVx x) (hs : ∀ x, i ≠ .ldStVx x) : KeepsTimers s (exec i s) := by
  cases i with
  | ldDtVx x => exact absurd rfl (hd x)
  | ldStVx x => exact absurd rfl (hs x)
  | nop | cls | jpAddr | jpV0Addr | ldByte | addByte | ldReg | orReg | andReg | xorReg | rndByte | ldIAddr | addIVx | ldFVx | ldVxDt
  | ldVxK => exact .next rfl rfl
  | seByte | sneByte | seReg | sneReg => exact .skipIf s _
  | skp x => exact .skipOnKey s x true
  | sknp x => exact .skipOnKey s x false
  | addReg | subReg | shrReg | subnReg | shlReg => exact .writeback s _ _ _
  | ret => exact .execRet s
  | callAddr nnn => exact .execCallAddr nnn s
  | drw x y n =>
    simp only [exec, execDrw_eq]
    split
    · exact .raise s _
    · exact .next rfl rfl
  | ldBVx => exact .storeAtI s _
  | ldMemVx => exact .conventionalOnly (.storeAtI s _)
  | ldVxMem x =>
    have hload : KeepsTimers s (.next (s.loadRegs x)) := .next rfl rfl
    exact .conventionalOnly (.checked hload _)

/-- What a completed instruction has done to the timers: one of the two sets, or nothing. -/
theorem exec_timer_cases (h : exec i s = .next t) :
    (∃ x, i = .ldDtVx x ∧ t = s.setDt (s.reg x)) ∨ (∃ x, i = .ldStVx x ∧ t = s.setSt (s.reg x)) ∨
      (t.dt = s.dt ∧ t.st = s.st) := by
  by_cases hd : ∃ x, i = .ldDtVx x
  · obtain ⟨x, rfl⟩ := hd
    exact .inl ⟨x, rfl, (Host.Outcome.next.inj h).symm⟩
  · by_cases hs : ∃ x, i = .ldStVx x
    · obtain ⟨x, rfl⟩ := hs
      exact .inr (.inl ⟨x, rfl, (Host.Outcome.next.inj h).symm⟩)
    · exact .inr (.inr (exec_keepsTimers s (not_exists.1 hd) (not_exists.1 hs) t h))

theorem exec_timer_writers (h : exec i s = .next t) :
    (t.dt ≠ s.dt → ∃ x, i = .ldDtVx x) ∧ (t.st ≠ s.st → ∃ x, i = .ldStVx x) := by
  obtain ⟨x, hi, rfl⟩ | ⟨x, hi, rfl⟩ | ⟨hd, hs⟩ := exec_timer_cases h
  · exact ⟨fun _ => ⟨x, hi⟩, fun hst => absurd (State.setDt_st s _) hst⟩
  · exact ⟨fun hdt => absurd (State.setSt_dt s _) hdt, fun _ => ⟨x, hi⟩⟩
  · exact ⟨fun hdt => absurd hd hdt, fun hst => absurd hs hst⟩

/-- Settles O49: each of the three is one write, and every instruction but the two setters keeps both timers. -/
theorem timerTransfers : Obligations.TimerTransfers := by
  unfold Obligations.TimerTransfers
  refine ⟨fun x => ⟨?_, ?_, ?_, fun s => ⟨completes_ldVxDt x s, completes_ldDtVx x s, completes_ldStVx x s⟩⟩,
    fun i s t h => exec_timer_writers h⟩
  · exact decodeWord_wordXNN_F x 0x07
  · exact decodeWord_wordXNN_F x 0x15
  · exact decodeWord_wordXNN_F x 0x18

end Sys2Proof
end

section
/-!
PROOFS. The words that raise `UnimplementedOpcode` (60_exceptions.md R191): the decoder gives no instruction for exactly the words
of 30_encoding.md R87, and no instruction that dispatches raises this fault.
-/

namespace Sys2Proof

open Machine

variable {w : Word} {s t : State} {r : FaultRecord}

/-! ## The words of each family that decode to nothing (30_encoding.md R87) -/

theorem decodeFamily0_eq_none_iff : decodeFamily0 w = none ↔ w ≠ 0x0000#16 ∧ w ≠ 0x00E0#16 ∧ w ≠ 0x00EE#16 := by
  simp [decodeFamily0, ite_eq_iff]

theorem decodeFamily8_eq_none_iff (x y : Reg) (n : BitVec 4) :
    decodeFamily8 x y n = none ↔ n ∈ [0x8#4, 0x9#4, 0xA#4, 0xB#4, 0xC#4, 0xD#4, 0xF#4] := by
  rw [← Option.map_eq_none_iff (f := Instr.row), decodeFamily8_row x y 0 0]
  revert n
  decide

theorem decodeFamilyE_eq_none_iff (x : Reg) (nn : Byte) : decodeFamilyE x nn = none ↔ nn ∉ [0x9E#8, 0xA1#8] := by
  simp [decodeFamilyE, ite_eq_iff]

theorem decodeFamilyF_eq_none_iff (x : Reg) (nn : Byte) :
    decodeFamilyF x nn = none ↔ nn ∉ [0x07#8, 0x0A#8, 0x15#8, 0x18#8, 0x1E#8, 0x29#8, 0x33#8, 0x55#8, 0x65#8] := by
  simp [decodeFamilyF, ite_eq_iff]

/-- A word decodes to nothing exactly when R87 lists it: each family nibble leaves one clause of `IllegalWord`, or none. -/
theorem decodeWord_eq_none_iff_illegalWord : decodeWord w = none ↔ IllegalWord w := by
  have hn1 (op : BitVec 4) : fieldN1 w = op ↔ (fieldN1 w).toNat = op.toNat := BitVec.toNat_inj.symm
  unfold decodeWord
  split
  case h_1 hop => simp [IllegalWord, hn1, hop, decodeFamily0_eq_none_iff]
  case h_6 hop | h_10 hop => simp [IllegalWord, hn1, hop]
  case h_9 hop => simp [IllegalWord, hn1, hop, decodeFamily8_eq_none_iff]
  case h_15 hop => simp [IllegalWord, hn1, hop, decodeFamilyE_eq_none_iff]
  case h_2 hop | h_3 hop | h_4 hop | h_5 hop | h_7 hop | h_8 hop | h_11 hop | h_12 hop | h_13 hop | h_14 hop =>
    simp [IllegalWord, hn1, hop]
  case h_16 =>
    have hop : (fieldN1 w).toNat = 15 := by have := (fieldN1 w).isLt; grind
    simp [IllegalWord, hn1, hop, decodeFamilyF_eq_none_iff]

/-! ## What a fetching step raises -/

theorem Machine.State.stepResult_eq_fault_iff : t.stepResult = .fault r ↔ t.mode = .faulted r := by
  unfold State.stepResult
  cases t.mode <;> simp

/-- An instruction that completes leaves a running core out of `Faulted`. -/
theorem Machine.Completed.notFaulted {i : Instr} (h : Completed i s t) (hm : s.mode = .running) : t.NotFaulted := by
  intro r hr
  obtain ⟨hmode, -⟩ | ⟨x, -, hmode⟩ := h.mode
  · simp [hmode, hm] at hr
  · simp [hmode] at hr

/-- A fetching step that faults with `UnimplementedOpcode` fetched a word that decodes to nothing (40_pipeline.md R106). -/
theorem decodeWord_eq_none_of_step_raises (hs : s.Fetches) (hstep : step s = .next t) (hmode : t.mode = .faulted r)
    (hkind : r.kind = .unimplementedOpcode w) : decodeWord s.fetchWord = none := by
  obtain ⟨hrun, hpc⟩ := hs
  obtain ⟨k, i, -, -, hcause, rfl⟩ | ⟨i, -, -, -, hdone⟩ | ⟨-, hd, -⟩ | ⟨hbad, -⟩ := running_step_cases hrun hstep
  · obtain rfl := RunMode.faulted.inj hmode
    obtain rfl : k = .unimplementedOpcode w := hkind
    exact hcause.elim
  · exact absurd hmode (hdone.notFaulted hrun r)
  · exact hd
  · exact absurd hpc hbad

/-- Settles O4: `UnimplementedOpcode` is raised by the illegal branch of the cycle alone, which the words of R87 take. -/
theorem illegalWordsRaiseUnimplementedOpcode : Obligations.IllegalWordsRaiseUnimplementedOpcode := by
  unfold Obligations.IllegalWordsRaiseUnimplementedOpcode
  intro s hs
  rw [← decodeWord_eq_none_iff_illegalWord]
  constructor
  · rintro ⟨t, r, hstep, hres, hkind⟩
    exact decodeWord_eq_none_of_step_raises hs hstep (State.stepResult_eq_fault_iff.1 hres) hkind
  · intro hd
    exact ⟨_, _, step_of_illegal hs hd, State.stepResult_eq_fault_iff.2 rfl, rfl⟩

end Sys2Proof
end

section
/-!
PROOFS. The read ports (60_exceptions.md R203, R204): the framebuffer port lists the cells row by row, so element `y * 64 + x` is
cell `(y, x)`.
-/

namespace Sys2Proof

open Machine

/-- The place of cell `(y, x)` among the 32 * 64: its row is the quotient by 64, its column the remainder. -/
theorem cellIndex_eq (y : Fin 32) (x : Fin 64) (h : y.val * 64 + x.val < 32 * 64) :
    (⟨y.val * 64 + x.val, h⟩ : Fin (32 * 64)) = finProdFinEquiv (y, x) := by
  apply Fin.ext
  simp only [finProdFinEquiv_apply_val]
  omega

/-- The rows after each other are one list over the places. -/
theorem Machine.State.framebuffer_eq_ofFn (s : State) :
    s.framebuffer = List.ofFn fun k => s.pixel (finProdFinEquiv.symm k).1 (finProdFinEquiv.symm k).2 := by
  simp only [State.framebuffer, List.flatMap_def, ← List.ofFn_eq_map, List.ofFn_mul, cellIndex_eq, Equiv.symm_apply_apply]

theorem Machine.State.framebuffer_length (s : State) : s.framebuffer.length = 2048 := by
  rw [State.framebuffer_eq_ofFn, List.length_ofFn]

theorem Machine.State.framebuffer_getElem? (s : State) (y : Fin 32) (x : Fin 64) :
    s.framebuffer[y.val * 64 + x.val]? = some (s.pixel y x) := by
  have hk : y.val * 64 + x.val < 32 * 64 := by omega
  rw [State.framebuffer_eq_ofFn, List.getElem?_ofFn, dif_pos hk, cellIndex_eq, Equiv.symm_apply_apply]

/-- Settles O57: each port answers the state it was given. -/
theorem readPortsHaveNoSideEffect : Obligations.ReadPortsHaveNoSideEffect := by
  unfold Obligations.ReadPortsHaveNoSideEffect
  exact fun s => ⟨⟨s.framebuffer, rfl, s.framebuffer_length, s.framebuffer_getElem?⟩, rfl, rfl⟩

end Sys2Proof
end

section
/-!
PROOFS. `load` of a ROM that does not fit (70_reset_and_hazards.md R224): 0x200 and its length pass the end of memory.
-/

namespace Sys2Proof

open Machine

/-- `load` stores nothing of a ROM whose last byte would lie past 0xFFF. -/
theorem Machine.State.load_of_too_large (s : State) {bytes : List Byte} (h : 4096 < 0x200 + bytes.length) :
    s.load bytes = (s, .romTooLarge) :=
  if_neg h.not_ge

/-- Settles O55: a ROM of more than 3584 bytes, placed at 0x200, would pass the 4096 bytes of memory. -/
theorem loadTooLargeChangesNothing : Obligations.LoadTooLargeChangesNothing := by
  unfold Obligations.LoadTooLargeChangesNothing
  intro s bytes hlong
  have hpast : 4096 < 0x200 + bytes.length := by omega
  exact s.load_of_too_large hpast

end Sys2Proof
end

section
/-!
PROOFS. Encoding and decoding are inverse (30_encoding.md R82, R85, R86): the word of every well-formed instruction decodes to it,
and a word that decodes is the word of a well-formed instruction.
-/

namespace Sys2Proof

open Machine

variable {w : Word} {i : Instr}

/-! ## The words of families 1, 2, B, C, D and E -/

@[simp] theorem decodeWord_encodeNNN_1 (nnn : AddrField) : decodeWord (encodeNNN 0x1#4 nnn) = some (.jpAddr nnn) := by
  simp [decodeWord]

@[simp] theorem decodeWord_encodeNNN_2 (nnn : AddrField) : decodeWord (encodeNNN 0x2#4 nnn) = some (.callAddr nnn) := by
  simp [decodeWord]

@[simp] theorem decodeWord_encodeNNN_B (nnn : AddrField) : decodeWord (encodeNNN 0xB#4 nnn) = some (.jpV0Addr nnn) := by
  simp [decodeWord]

@[simp] theorem decodeWord_encodeXNN_C (x : Reg) (nn : Byte) : decodeWord (encodeXNN 0xC#4 x nn) = some (.rndByte x nn) := by
  simp [decodeWord]

@[simp] theorem decodeWord_encodeXYN_D (x y : Reg) (n : BitVec 4) :
    decodeWord (encodeXYN 0xD#4 x y n) = some (.drw x y n.toNat) := by
  simp [decodeWord]

/-- In family E the low byte selects the row (30_encoding.md R85). -/
@[simp] theorem decodeWord_encodeXNN_E (x : Reg) (nn : Byte) : decodeWord (encodeXNN 0xE#4 x nn) = decodeFamilyE x nn := by
  simp [decodeWord]

/-! ## Decode of encode -/

theorem decodeWord_encode (h : i.wellFormed = true) : decodeWord (encode i) = some i := by
  cases i with
  | nop | cls | ret => rfl
  | jpAddr | callAddr | ldIAddr | jpV0Addr => simp [encode]
  | seByte | sneByte | ldByte | addByte | rndByte => simp [encode]
  | seReg | sneReg => simp [encode]
  | ldReg | orReg | andReg | xorReg | addReg | subReg | shrReg | subnReg | shlReg => exact decodeWord_encodeXYN_8 _ _ _
  | skp | sknp => exact decodeWord_encodeXNN_E _ _
  | ldVxDt | ldDtVx | ldStVx | addIVx | ldFVx | ldBVx | ldMemVx | ldVxMem | ldVxK => exact decodeWord_encodeXNN_F _ _
  | drw x y n =>
    have hn : n < 16 := by simpa [Instr.wellFormed] using h
    simp [encode, Nat.mod_eq_of_lt hn]

theorem decode_encodeBytes_append (h : i.wellFormed = true) (rest : List Byte) :
    decode (encodeBytes i ++ rest) = .ok (i, rest) := by
  simp only [encodeBytes, List.cons_append, List.nil_append, decode, bytes_append, decodeWord_encode h]

/-- Settles O1: the decoder reads back the fields of each format, and the two bytes make the word again. -/
theorem decodeOfEncode : Obligations.DecodeOfEncode := by
  unfold Obligations.DecodeOfEncode
  exact fun i h => ⟨decodeWord_encode h, decode_encodeBytes_append h⟩

/-! ## Encode of decode -/

/-- The one operand with a check, the row count, comes from a field of four bits. -/
theorem wellFormed_of_decodeWord (h : decodeWord w = some i) : i.wellFormed = true := by
  cases i with
  | drw x y n =>
    rw [← encode_of_decodeWord h] at h
    have hn : n % 16 = n := by simpa [encode] using h
    simp only [Instr.wellFormed, decide_eq_true_eq]
    omega
  | _ => rfl

/-- Settles O2: no format drops a bit of the word. -/
theorem encodeOfDecode : Obligations.EncodeOfDecode := by
  unfold Obligations.EncodeOfDecode
  exact fun w i h => ⟨wellFormed_of_decodeWord h, encode_of_decodeWord h⟩

/-- Settles O5: each word is evaluated by the decoder. -/
theorem writtenOutWordsDecode : Obligations.WrittenOutWordsDecode := by
  unfold Obligations.WrittenOutWordsDecode
  decide

theorem decodeWord_of_decode_pair {hi lo : Byte} (h : decode [hi, lo] = .ok (i, [])) : decodeWord (hi ++ lo) = some i := by
  cases hd : decodeWord (hi ++ lo) with
  | none => simp [decode, hd] at h
  | some j => simpa [decode, hd] using h

/-- Settles O6: the two bytes at `pc` make the fetched word, and the fetch advance does not wrap. -/
theorem stepRunsTheDecodedInstruction : Obligations.StepRunsTheDecodedInstruction := by
  unfold Obligations.StepRunsTheDecodedInstruction
  intro s i hs h
  have hd : decodeWord s.fetchWord = some i := decodeWord_of_decode_pair h
  exact ⟨wellFormed_of_decodeWord hd, step_of_fetch hs hd, hs.2.advance⟩

end Sys2Proof
end

section
/-!
PROOFS. The invariant (10_state.md R39): the core after reset meets it, every step keeps it, and so does every sequence of host
operations, which also keeps the parameters.
-/

namespace Sys2Proof

open Machine

variable {s t : State}

/-! ## The step outside `Running` (40_pipeline.md R101, R102) -/

theorem eq_of_faulted_step {r : FaultRecord} (hm : s.mode = .faulted r) (h : step s = .next t) : t = s := by
  rw [step_of_faulted hm] at h
  exact (Host.Outcome.next.inj h).symm

theorem waiting_step_cases {x : Reg} (hm : s.mode = .waitingForKey x) (h : step s = .next t) :
    (∃ k, s.key k = true ∧ (∀ j < k, s.key j = false) ∧ t = (s.setReg x (BitVec.ofNat 8 k.val)).setMode .running) ∨
    ((∀ k, s.key k = false) ∧ t = s) := by
  rw [step_of_waiting hm] at h
  obtain rfl := Host.Outcome.next.inj h
  exact s.poll_cases x

/-! ## A step keeps the invariant -/

/-- Outside `Faulted` the invariant asks nothing of the mode. -/
theorem Machine.State.Inv.of_notFaulted (hmem : Memory.wf t.params.font t.mem) (hpc : t.pc.toNat ≤ 0x10FE)
    (hstack : ∀ j, (t.stackAt j).toNat ≤ 0x1000) (h : t.NotFaulted) : t.Inv :=
  ⟨hmem, hpc, hstack, fun r hr => absurd hr (h r)⟩

/-- A state that enters `Faulted` with a truthful record meets the invariant if it met the rest of it before. -/
theorem Machine.State.Inv.of_setMode {r : FaultRecord} (hmem : Memory.wf s.params.font s.mem) (hpc : s.pc.toNat ≤ 0x10FE)
    (hstack : ∀ j, (s.stackAt j).toNat ≤ 0x1000) (hr : r.Truthful (s.setMode (.faulted r))) : (s.setMode (.faulted r)).Inv :=
  ⟨hmem, hpc, hstack, fun _ hq => RunMode.faulted.inj hq ▸ hr⟩

/-- The record of an instruction that raises says what caused it (60_exceptions.md R190, R192). -/
theorem Machine.RaiseCause.truthful {i : Instr} {k : FaultKind} (hf : Fetchable s.pc) (h : RaiseCause i (s.setPc (s.pc + 2)) k) :
    (⟨k, s.pc⟩ : FaultRecord).Truthful ((s.setPc (s.pc + 2)).setMode (.faulted ⟨k, s.pc⟩)) := by
  cases k with
  | stackOverflow | stackUnderflow => exact ⟨h.1, hf, rfl⟩
  | unimplementedOpcode | pcOutOfRange => exact h.elim
  | memoryOutOfRange a => exact ⟨h, hf, rfl⟩
  | protectedWrite a =>
    obtain ⟨ha, hlow, hp⟩ := h
    exact ⟨ha, hlow, hp, hf, rfl⟩
  | keyIndexOutOfRange b =>
    obtain ⟨hb, hx⟩ := h
    exact ⟨hb, hx, hf, rfl⟩

theorem Machine.Fetchable.advance_le {a : Word} (h : Fetchable a) : (a + 2).toNat ≤ 0x1000 := by
  have hmax := h.2.2
  rw [h.advance]
  omega

/-- An instruction that completes keeps the invariant: `pc` moves on from at most 0x1000, and a call pushes that address. -/
theorem Machine.Completed.inv {i : Instr} (hs : s.Fetches) (h : s.Inv) (hc : Completed i (s.setPc (s.pc + 2)) t) : t.Inv := by
  obtain ⟨hrun, hf⟩ := hs
  have hadv : (s.pc + 2).toNat ≤ 0x1000 := hf.advance_le
  refine .of_notFaulted (hc.memory h.memory) ?_ (fun j => ?_) (hc.notFaulted hrun)
  · obtain hp | hp | hp | ⟨j, hp⟩ := hc.pc
    · rw [hp, State.setPc_pc]; omega
    · rw [hp, State.setPc_pc]; bv_omega
    · exact hp
    · rw [hp]; exact (h.stack j).trans (by decide)
  · obtain hj | hj := hc.stack j <;> rw [hj]
    · exact h.stack j
    · exact hadv

theorem running_step_inv (hrun : s.mode = .running) (h : s.Inv) (hstep : step s = .next t) : t.Inv := by
  obtain ⟨k, i, hs, -, hcause, rfl⟩ | ⟨i, hs, -, -, hdone⟩ | ⟨hs, hd, rfl⟩ | ⟨hbad, rfl⟩ := running_step_cases hrun hstep
  · exact .of_setMode h.memory (hs.2.advance_le.trans (by decide)) h.stack (RaiseCause.truthful hs.2 hcause)
  · exact hdone.inv hs h
  · exact .of_setMode h.memory (hs.2.advance_le.trans (by decide)) h.stack ⟨hd, hs.2, rfl⟩
  · exact .of_setMode h.memory h.pc h.stack ⟨rfl, hbad, rfl⟩

theorem step_inv (h : s.Inv) (hstep : step s = .next t) : t.Inv := by
  cases hm : s.mode with
  | running => exact running_step_inv hm h hstep
  | faulted r => exact eq_of_faulted_step hm hstep ▸ h
  | waitingForKey x =>
    obtain ⟨k, -, -, rfl⟩ | ⟨-, rfl⟩ := waiting_step_cases hm hstep
    · exact .of_notFaulted h.memory h.pc h.stack (by simp [State.NotFaulted])
    · exact h

/-- Settles O15: in each mode, and for each way a cycle ends, the four parts of the invariant hold of the answer. -/
theorem stepKeepsTheInvariant : Obligations.StepKeepsTheInvariant := by
  unfold Obligations.StepKeepsTheInvariant
  exact fun s t => step_inv

/-! ## The core after reset -/

/-- Memory that lists nothing, `pc` 0x200 and an empty stack meet the invariant, however many random bytes were consumed. -/
theorem resetWith_inv (p : Params) (n : Nat) : ({ State.resetWith p with draws := n } : State).Inv := by
  refine .of_notFaulted (Memory.wf_nil _) (by simp [State.resetWith]) (fun j => ?_) (by simp [State.NotFaulted, State.resetWith])
  simp [State.resetWith, State.stackAt]

/-- Settles O16: the default parameters and any others. -/
theorem resetMeetsTheInvariant : Obligations.ResetMeetsTheInvariant := by
  unfold Obligations.ResetMeetsTheInvariant
  exact ⟨resetWith_inv defaultParams 0, fun p => resetWith_inv p 0⟩

/-! ## The host operations -/

/-- `key_down` changes the keypad and nothing else. -/
theorem Machine.State.keyDown_eq (s : State) (n : Nat) : s.keyDown n = { s with keypad := (s.keyDown n).keypad } := by
  unfold State.keyDown
  split <;> rfl

/-- `key_up` changes the keypad and nothing else. -/
theorem Machine.State.keyUp_eq (s : State) (n : Nat) : s.keyUp n = { s with keypad := (s.keyUp n).keypad } := by
  unfold State.keyUp
  split <;> rfl

/-- `load` changes memory and nothing else. -/
theorem Machine.State.load_eq (s : State) (bytes : List Byte) : (s.load bytes).1 = { s with mem := (s.load bytes).1.mem } := by
  unfold State.load
  split
  · exact State.storeBytes_eq bytes s 0x200
  · rfl

theorem Machine.State.load_wf (hs : Memory.wf s.params.font s.mem) (bytes : List Byte) :
    Memory.wf s.params.font (s.load bytes).1.mem := by
  unfold State.load
  split
  · simpa using State.storeBytes_wf hs bytes (a := 0x200) (by omega)
  · exact hs

/-- The parameters are constant (00_scope.md R6). -/
theorem step_params (hstep : step s = .next t) : t.params = s.params := by
  cases hm : s.mode with
  | faulted r => rw [eq_of_faulted_step hm hstep]
  | waitingForKey x => obtain ⟨k, -, -, rfl⟩ | ⟨-, rfl⟩ := waiting_step_cases hm hstep <;> rfl
  | running =>
    obtain ⟨k, i, -, -, -, rfl⟩ | ⟨i, -, -, -, hdone⟩ | ⟨-, -, rfl⟩ | ⟨-, rfl⟩ := running_step_cases hm hstep
    · rfl
    · exact hdone.params
    · rfl
    · rfl

theorem step_of_operate {r : Response} (h : operate .step s = .next (t, r)) : step s = .next t := by
  cases hs : step s with
  | next u => simp_all [operate]
  | fault e => simp [operate, hs] at h
  | refused e => simp [operate, hs] at h

theorem operate_inv {op : HostOp} {r : Response} (h : s.Inv) (hop : operate op s = .next (t, r)) : t.Inv := by
  cases op with
  | step => exact step_inv h (step_of_operate hop)
  | new | reset => cases hop; exact resetWith_inv s.params s.draws
  | load bytes =>
    cases hop
    rw [State.load_eq]
    exact ⟨State.load_wf h.memory bytes, h.pc, h.stack, h.fault⟩
  | tickTimers => cases hop; exact ⟨h.memory, h.pc, h.stack, h.fault⟩
  | keyDown n => cases hop; rw [State.keyDown_eq]; exact ⟨h.memory, h.pc, h.stack, h.fault⟩
  | keyUp n => cases hop; rw [State.keyUp_eq]; exact ⟨h.memory, h.pc, h.stack, h.fault⟩
  | framebuffer | delayTimer | soundTimer => cases hop; exact h

theorem operate_params {op : HostOp} {r : Response} (hop : operate op s = .next (t, r)) : t.params = s.params := by
  cases op with
  | step => exact step_params (step_of_operate hop)
  | load bytes => cases hop; rw [State.load_eq]
  | keyDown n => cases hop; rw [State.keyDown_eq]
  | keyUp n => cases hop; rw [State.keyUp_eq]
  | new | reset | tickTimers | framebuffer | delayTimer | soundTimer => cases hop; rfl

/-- A sequence that answers is one operation that answers, and then the rest from its state. -/
theorem operateAll_cons {op : HostOp} {ops : List HostOp} {rs : List Response} (h : operateAll (op :: ops) s = .next (t, rs)) :
    ∃ u r qs, operate op s = .next (u, r) ∧ operateAll ops u = .next (t, qs) ∧ rs = r :: qs := by
  simp only [operateAll] at h
  split at h <;> try cases h
  split at h <;> cases h
  exact ⟨_, _, _, ‹_›, ‹_›, rfl⟩

/-- What one operation keeps, a sequence keeps. -/
theorem operateAll_induction {P : State → Prop} (hP : ∀ op s t r, P s → operate op s = .next (t, r) → P t)
    {ops : List HostOp} {rs : List Response} (hs : P s) (h : operateAll ops s = .next (t, rs)) : P t := by
  induction ops generalizing s rs with
  | nil => cases h; exact hs
  | cons op ops ih =>
    obtain ⟨u, r, qs, hop, hops, -⟩ := operateAll_cons h
    exact ih (hP op s u r hs hop) hops

/-- Settles O17: each operation keeps the invariant and the parameters, so a sequence of them does. -/
theorem operationsKeepTheInvariant : Obligations.OperationsKeepTheInvariant := by
  unfold Obligations.OperationsKeepTheInvariant
  intro ops s t rs hs h
  refine operateAll_induction (P := fun u => u.Inv ∧ u.params = s.params) ?_ ⟨hs, rfl⟩ h
  exact fun op u v r ⟨hu, hp⟩ hop => ⟨operate_inv hu hop, (operate_params hop).trans hp⟩

end Sys2Proof
end

section
/-!
PROOFS. What each instruction changes (00_scope.md R17; 10_state.md R24-R36): the parts it writes, as a table, and that every other
part but the mode is as before; then the registers it writes.
-/

namespace Sys2Proof

open Machine

variable {i : Instr} {s t u : State} {ps qs : List Part} {r : Reg}

/-! ## Frames (00_scope.md R17) -/

theorem Machine.Part.same_refl (p : Part) (s : State) : p.same s s := by
  cases p with
  | stack => exact ⟨rfl, fun _ => rfl⟩
  | regs | keypad | memory => exact fun _ => rfl
  | display => exact fun _ _ => rfl
  | index | pc | delay | sound | mode | params | draws => rfl

theorem Machine.UnchangedExcept.refl (ps : List Part) (s : State) : UnchangedExcept ps s s :=
  fun p _ => p.same_refl s

theorem Machine.UnchangedExcept.mono (h : UnchangedExcept ps s t) (hsub : ps ⊆ qs) : UnchangedExcept qs s t :=
  fun p hp => h p fun hm => hp (hsub hm)

theorem Machine.UnchangedExcept.trans (hst : UnchangedExcept ps s t) (htu : UnchangedExcept qs t u) :
    UnchangedExcept (ps ++ qs) s u := by
  intro p hp
  rw [List.mem_append, not_or] at hp
  have h1 := hst p hp.1
  have h2 := htu p hp.2
  cases p with
  | stack => exact ⟨h2.1.trans h1.1, fun j => (h2.2 j).trans (h1.2 j)⟩
  | regs | keypad | memory => exact fun a => (h2 a).trans (h1 a)
  | display => exact fun y x => (h2 y x).trans (h1 y x)
  | index | pc | delay | sound | mode | params | draws => exact h2.trans h1

theorem Machine.State.setMode_unchangedExcept (s : State) (m : RunMode) : UnchangedExcept [.mode] s (s.setMode m) := by
  intro p hp
  have hs := p.same_refl s
  cases p with
  | mode => exact absurd (List.mem_singleton_self _) hp
  | _ => exact hs

theorem Machine.State.countDraw_unchangedExcept (s : State) : UnchangedExcept [.draws] s s.countDraw := by
  intro p hp
  have hs := p.same_refl s
  cases p with
  | draws => exact absurd (List.mem_singleton_self _) hp
  | _ => exact hs

/-- A state that differs in its stack and `sp` alone has changed the stack alone. -/
theorem unchangedExcept_stack_of_eq (h : t = { s with stack := t.stack, sp := t.sp }) : UnchangedExcept [.stack] s t := by
  rw [h]
  intro p hp
  have hs := p.same_refl s
  cases p with
  | stack => exact absurd (List.mem_singleton_self _) hp
  | _ => exact hs

/-- A state that differs in its memory alone has changed the memory alone. -/
theorem unchangedExcept_memory_of_eq (h : t = { s with mem := t.mem }) : UnchangedExcept [.memory] s t := by
  rw [h]
  intro p hp
  have hs := p.same_refl s
  cases p with
  | memory => exact absurd (List.mem_singleton_self _) hp
  | _ => exact hs

theorem Machine.State.storeBytes_unchangedExcept (s : State) (a : Nat) (bs : List Byte) :
    UnchangedExcept [.memory] s (s.storeBytes a bs) :=
  unchangedExcept_memory_of_eq (State.storeBytes_eq bs s a)

/-! ## The parts an instruction writes -/

/-- The parts an instruction writes when it completes: the writers of 10_state.md R24-R36. -/
def Instr.writes : Instr → List Part
  | .nop => []
  | .cls => [.display]
  | .ret | .callAddr _ => [.stack, .pc]
  | .jpAddr _ | .jpV0Addr _ | .seByte _ _ | .sneByte _ _ | .seReg _ _ | .sneReg _ _ | .skp _ | .sknp _ => [.pc]
  | .ldByte _ _ | .addByte _ _ | .ldReg _ _ | .orReg _ _ | .andReg _ _ | .xorReg _ _ | .addReg _ _ | .subReg _ _
  | .shrReg _ _ | .subnReg _ _ | .shlReg _ _ | .ldVxDt _ | .ldVxMem _ => [.regs]
  | .rndByte _ _ => [.regs, .draws]
  | .drw _ _ _ => [.display, .regs]
  | .ldIAddr _ | .addIVx _ | .ldFVx _ => [.index]
  | .ldDtVx _ => [.delay]
  | .ldStVx _ => [.sound]
  | .ldBVx _ | .ldMemVx _ => [.memory]
  | .ldVxK _ => [.mode]

/-- If the answer is a next state, only the listed parts and the mode can differ from `s`. -/
def ChangesOnly (ps : List Part) (s : State) (a : Answer) : Prop := ∀ t, a = .next t → UnchangedExcept (.mode :: ps) s t

theorem ChangesOnly.next (h : UnchangedExcept ps s t) : ChangesOnly ps s (.next t) := by
  rintro _ ⟨⟩
  exact h.mono (List.subset_cons_self _ _)

theorem Machine.State.raise_unchangedExcept {k : FaultKind} (h : s.raise k = .next t) : UnchangedExcept [.mode] s t := by
  cases h
  exact State.setMode_unchangedExcept s _

theorem ChangesOnly.raise (ps : List Part) (s : State) (k : FaultKind) : ChangesOnly ps s (s.raise k) :=
  fun _ h => (State.raise_unchangedExcept h).mono (by simp)

theorem ChangesOnly.checked {a : Answer} (h : ChangesOnly ps s a) : ∀ c : Option FaultKind, ChangesOnly ps s (s.checked c a)
  | none => h
  | some k => .raise ps s k

theorem ChangesOnly.conventionalOnly {a : Answer} (h : ChangesOnly ps s a) : ChangesOnly ps s (s.conventionalOnly a) := by
  unfold State.conventionalOnly
  cases s.params.blockQuirk with
  | conventional => exact h
  | observedSource => rintro _ ⟨⟩

theorem ChangesOnly.skipIf (s : State) (c : Bool) : ChangesOnly [.pc] s (.next (s.skipIf c)) := by
  rw [State.skipIf_eq]
  exact .next (State.setPc_unchangedExcept s _)

theorem ChangesOnly.skipOnKey (s : State) (x : Reg) (pressed : Bool) : ChangesOnly [.pc] s (s.skipOnKey x pressed) := by
  obtain ⟨-, e⟩ | ⟨k, -, e⟩ := s.skipOnKey_cases x pressed <;> rw [e]
  · exact .raise _ s _
  · exact .skipIf s _

theorem ChangesOnly.writeback (s : State) (x : Reg) (res f : Byte) : ChangesOnly [.regs] s (.next (s.writeback x res f)) :=
  .next (unchangedExcept_regs_of_eq (State.writeback_eq s x res f))

theorem ChangesOnly.storeAtI (s : State) (bytes : List Byte) : ChangesOnly [.memory] s (s.storeAtI bytes) :=
  .checked (.checked (.next (State.storeBytes_unchangedExcept s _ bytes)) _) _

theorem ChangesOnly.execRet (s : State) : ChangesOnly [.stack, .pc] s (execRet s) := by
  obtain ⟨-, e⟩ | ⟨j, p, -, -, e⟩ := execRet_cases s <;> rw [e]
  · exact .raise _ s _
  · exact .next ((unchangedExcept_stack_of_eq rfl).trans (State.setPc_unchangedExcept { s with sp := p } _))

theorem ChangesOnly.execCallAddr (nnn : AddrField) (s : State) : ChangesOnly [.stack, .pc] s (execCallAddr nnn s) := by
  obtain ⟨-, e⟩ | ⟨-, t, ht, e⟩ := execCallAddr_cases nnn s <;> rw [e]
  · exact .raise _ s _
  · obtain ⟨-, -, -, hpush⟩ := State.push_some ht
    exact .next ((unchangedExcept_stack_of_eq hpush).trans (State.setPc_unchangedExcept t _))

theorem ChangesOnly.execDrw (x y : Reg) (n : Nat) (s : State) : ChangesOnly [.display, .regs] s (execDrw x y n s) := by
  rw [execDrw_eq]
  split
  · exact .raise _ s _
  · exact .next ((State.setFb_unchangedExcept s _).trans (unchangedExcept_regs_of_eq rfl))

/-- Every instruction leaves the parts it does not write as they were; a fault writes the mode alone. -/
theorem exec_changesOnly (i : Instr) (s : State) : ChangesOnly i.writes s (exec i s) := by
  cases i with
  | nop => exact .next (.refl _ s)
  | cls => exact .next (State.setFb_unchangedExcept s _)
  | ret => exact .execRet s
  | callAddr nnn => exact .execCallAddr nnn s
  | jpAddr | jpV0Addr => exact .next (State.setPc_unchangedExcept s _)
  | seByte | sneByte | seReg | sneReg => exact .skipIf s _
  | skp x => exact .skipOnKey s x true
  | sknp x => exact .skipOnKey s x false
  | ldByte | addByte | ldReg | orReg | andReg | xorReg | ldVxDt => exact .next (unchangedExcept_regs_of_eq rfl)
  | addReg | subReg | shrReg | subnReg | shlReg => exact .writeback s _ _ _
  | rndByte x nn => exact .next ((unchangedExcept_regs_of_eq rfl).trans (State.countDraw_unchangedExcept (s.setReg x _)))
  | drw x y n => exact .execDrw x y n s
  | ldIAddr | addIVx | ldFVx => exact .next (State.setI_unchangedExcept s _)
  | ldDtVx => exact .next (unchangedExcept_of_timers_eq rfl (.inl (List.mem_singleton_self _)) (.inr rfl))
  | ldStVx => exact .next (unchangedExcept_of_timers_eq rfl (.inr rfl) (.inl (List.mem_singleton_self _)))
  | ldBVx => exact .storeAtI s _
  | ldMemVx => exact .conventionalOnly (.storeAtI s _)
  | ldVxMem x =>
    have hload : ChangesOnly [.regs] s (.next (s.loadRegs x)) := .next (unchangedExcept_regs_of_eq rfl)
    exact .conventionalOnly (.checked hload _)
  | ldVxK => exact .next (State.setMode_unchangedExcept s _)

/-- A part other than the mode that an instruction changed is one that it writes. -/
theorem mem_writes_of_changed {p : Part} (h : exec i s = .next t) (hmode : p ≠ .mode) (hp : ¬ p.same s t) : p ∈ i.writes := by
  by_contra hw
  exact hp (exec_changesOnly i s t h p (by simp [hmode, hw]))

/-! ## The writers of each part -/

theorem index_mem_writes : .index ∈ i.writes ↔ (∃ nnn, i = .ldIAddr nnn) ∨ ∃ x, i = .addIVx x ∨ i = .ldFVx x := by
  cases i <;> simp [Instr.writes]

theorem stack_mem_writes : .stack ∈ i.writes ↔ i = .ret ∨ ∃ nnn, i = .callAddr nnn := by
  cases i <;> simp [Instr.writes]

theorem display_mem_writes : .display ∈ i.writes ↔ i = .cls ∨ ∃ x y n, i = .drw x y n := by
  cases i <;> simp [Instr.writes]

theorem memory_mem_writes : .memory ∈ i.writes ↔ ∃ x, i = .ldBVx x ∨ i = .ldMemVx x := by
  cases i <;> simp [Instr.writes]

theorem draws_mem_writes : .draws ∈ i.writes ↔ ∃ x nn, i = .rndByte x nn := by
  cases i <;> simp [Instr.writes]

theorem keypad_not_mem_writes (i : Instr) : .keypad ∉ i.writes := by
  cases i <;> simp [Instr.writes]

theorem params_not_mem_writes (i : Instr) : .params ∉ i.writes := by
  cases i <;> simp [Instr.writes]

/-- Settles O18: a part that changed is one that the instruction writes, and the table gives its writers. -/
theorem partsChangeOnlyByTheirWriters : Obligations.PartsChangeOnlyByTheirWriters := by
  unfold Obligations.PartsChangeOnlyByTheirWriters
  intro i s t h
  obtain ⟨hdt, hst⟩ := exec_timer_writers h
  refine ⟨hdt, hst, fun hi => ?_, fun hstack => ?_, fun ⟨y, x, hpix⟩ => ?_, fun ⟨a, ha⟩ => ?_, fun hdraws => ?_, ?_, ?_⟩
  · exact index_mem_writes.1 (mem_writes_of_changed h (by decide) hi)
  · refine stack_mem_writes.1 (mem_writes_of_changed h (by decide) fun hsame => ?_)
    obtain hsp | ⟨j, hj⟩ := hstack
    · exact hsp hsame.1
    · exact hj (hsame.2 j)
  · exact display_mem_writes.1 (mem_writes_of_changed h (by decide) fun hsame => hpix (hsame y x))
  · exact memory_mem_writes.1 (mem_writes_of_changed h (by decide) fun hsame => ha (hsame a))
  · exact draws_mem_writes.1 (mem_writes_of_changed h (by decide) hdraws)
  · by_contra hkey
    exact keypad_not_mem_writes i (mem_writes_of_changed h (by decide) hkey)
  · by_contra hparams
    exact params_not_mem_writes i (mem_writes_of_changed h (by decide) hparams)

/-! ## The registers an instruction writes (10_state.md R24) -/

theorem Machine.State.writeback_reg_ne {x : Reg} (hx : r ≠ x) (hF : r ≠ regF) (s : State) (res f : Byte) :
    (s.writeback x res f).reg r = s.reg r := by
  rw [State.writeback_reg, if_neg (fun h => hF h.1), if_neg hx]

theorem exec_reg_of_not_mayWriteReg (h : exec i s = .next t) (hr : ¬ mayWriteReg i r) : t.reg r = s.reg r := by
  cases i with
  | ldByte | addByte | ldReg | orReg | andReg | xorReg | ldVxDt | rndByte =>
    cases h
    exact State.setReg_reg_ne s hr _
  | addReg | subReg | shrReg | subnReg | shlReg =>
    obtain ⟨hx, hF⟩ := not_or.1 hr
    cases h
    exact State.writeback_reg_ne hx hF s _ _
  | drw x y n =>
    have h : execDrw x y n s = .next t := h
    rw [execDrw_eq] at h
    split at h <;> cases h
    · rfl
    · exact State.setReg_reg_ne _ hr _
  | ldVxMem x =>
    have hx : ¬ r ≤ x := hr
    cases hq : s.params.blockQuirk with
    | observedSource => rw [exec, execLdVxMem_refused x s hq] at h; cases h
    | conventional =>
      rw [exec, execLdVxMem_eq x s hq] at h
      split at h <;> cases h
      · rfl
      · rw [State.loadRegs_reg, if_neg hx]
  | _ => exact exec_changesOnly _ s t h .regs (by simp [Instr.writes]) r

/-- Settles O19: an instruction keeps every register that it may not write. -/
theorem registersChangeOnlyByTheirWriters : Obligations.RegistersChangeOnlyByTheirWriters := by
  unfold Obligations.RegistersChangeOnlyByTheirWriters
  intro i s t r h hchanged
  by_contra hr
  exact hchanged (exec_reg_of_not_mayWriteReg h hr)

end Sys2Proof
end

section
/-!
PROOFS. The step (40_pipeline.md R100-R111; 60_exceptions.md R192-R209): what a step that raises leaves, the three modes and the
transitions between them, and the one refusal.
-/

namespace Sys2Proof

open Machine

variable {s t : State} {r : FaultRecord}

/-! ## A step that raises (60_exceptions.md R192, R193) -/

theorem advance_fault_unchangedExcept (s : State) (m : RunMode) :
    UnchangedExcept [.pc, .mode] s ((s.setPc (s.pc + 2)).setMode m) :=
  (State.setPc_unchangedExcept s _).trans (State.setMode_unchangedExcept _ m)

/-- What a step that raises leaves: the record, and `pc` advanced when the fetch check passed; only the fetch check raises
`PcOutOfRange`. -/
theorem raising_step_cases (hrun : s.mode = .running) (hstep : step s = .next t) (hr : t.mode = .faulted r) :
    (s.Fetches ∧ r.atPc = s.pc ∧ (∀ a, r.kind ≠ .pcOutOfRange a) ∧ t = (s.setPc (s.pc + 2)).setMode (.faulted r)) ∨
    (¬ Fetchable s.pc ∧ r = ⟨.pcOutOfRange s.pc, s.pc⟩ ∧ t = s.setMode (.faulted r)) := by
  obtain ⟨k, i, hs, -, hcause, rfl⟩ | ⟨i, -, -, -, hdone⟩ | ⟨hs, -, rfl⟩ | ⟨hbad, rfl⟩ := running_step_cases hrun hstep
  · obtain rfl := RunMode.faulted.inj hr
    refine .inl ⟨hs, rfl, fun a hk => ?_, rfl⟩
    obtain rfl : k = .pcOutOfRange a := hk
    exact hcause
  · exact absurd hr (hdone.notFaulted hrun r)
  · obtain rfl := RunMode.faulted.inj hr
    exact .inl ⟨hs, rfl, by simp, rfl⟩
  · obtain rfl := RunMode.faulted.inj hr
    exact .inr ⟨hbad, rfl, rfl⟩

/-- Settles O7: the three bad cases are those that fail the fetch check, and no other branch of the cycle raises this fault. -/
theorem badPcRaisesPcOutOfRange : Obligations.BadPcRaisesPcOutOfRange := by
  unfold Obligations.BadPcRaisesPcOutOfRange
  refine ⟨fun s hrun hpc => ?_, fun s t a b hs hstep hr => ?_⟩
  · have hbad : ¬ Fetchable s.pc := by rintro ⟨heven, hlow, hhigh⟩; omega
    exact ⟨_, step_of_bad_pc hrun hbad, rfl, State.setMode_unchangedExcept s _⟩
  · obtain ⟨-, -, hkind, -⟩ | ⟨hbad, -, -⟩ := raising_step_cases hs.1 hstep hr
    · exact hkind a rfl
    · exact hbad hs.2

/-- Settles O13: a fault past the fetch check leaves the advance of `pc`, one of the fetch check nothing but the record. -/
theorem raisingStepMakesNoWrites : Obligations.RaisingStepMakesNoWrites := by
  unfold Obligations.RaisingStepMakesNoWrites
  intro s t r hrun hstep hr
  obtain ⟨hs, hat, -, rfl⟩ | ⟨hbad, rfl, rfl⟩ := raising_step_cases hrun hstep hr
  · exact ⟨hat, rfl, fun hf => hf.advance, fun hbad => absurd hs.2 hbad, advance_fault_unchangedExcept s _⟩
  · exact ⟨rfl, rfl, fun hf => absurd hf hbad, fun _ => rfl, (State.setMode_unchangedExcept s _).mono (by simp)⟩

/-! ## Steps that change nothing -/

/-- Any number of steps of a core that a step leaves as it is. -/
theorem operateAll_steps_of_fixed (h : step s = .next s) (n : Nat) :
    operateAll (List.replicate n .step) s = .next (s, List.replicate n (.stepped s.stepResult)) := by
  induction n with
  | zero => rfl
  | succ n ih => exact operateAll_append (operateAll_step h) ih

/-- Settles O8: a step of a faulted core answers the core, and its record is the mode's. -/
theorem faultedCoreNeverMoves : Obligations.FaultedCoreNeverMoves := by
  unfold Obligations.FaultedCoreNeverMoves
  intro s r hr n
  have hres : s.stepResult = .fault r := State.stepResult_eq_fault_iff.2 hr
  rw [← hres]
  exact operateAll_steps_of_fixed (step_of_faulted hr) n

/-! ## The poll (40_pipeline.md R102) -/

theorem step_of_waiting_no_key {x : Reg} (hm : s.mode = .waitingForKey x) (hno : ∀ k, s.key k = false) : step s = .next s := by
  rw [step_of_waiting hm, State.poll, State.lowestPressedKey_none.2 hno]

/-- Settles O9: without a key the poll finds nothing. -/
theorem waitWithoutKeyNeverMoves : Obligations.WaitWithoutKeyNeverMoves := by
  unfold Obligations.WaitWithoutKeyNeverMoves
  intro s x hm hno n
  have hres : s.stepResult = .ok := by rw [State.stepResult, hm]
  rw [← hres]
  exact operateAll_steps_of_fixed (step_of_waiting_no_key hm hno) n

theorem keyByte_toNat (k : Reg) : (BitVec.ofNat 8 k.val : Byte).toNat = k.val := by
  simp only [BitVec.toNat_ofNat]
  omega

/-- The key that the poll finds is the least pressed one. -/
theorem poll_of_least_key {x k : Reg} (hk : s.key k = true) (hleast : ∀ j < k, s.key j = false) :
    s.poll x = (s.setReg x (BitVec.ofNat 8 k.val)).setMode .running := by
  obtain ⟨j, hj, hjleast, e⟩ | ⟨hno, -⟩ := s.poll_cases x
  · obtain hlt | rfl | hgt := lt_trichotomy j k
    · exact absurd hj (by simp [hleast j hlt])
    · exact e
    · exact absurd hk (by simp [hjleast k hgt])
  · exact absurd hk (by simp [hno k])

/-- Settles O10: the poll writes the least pressed key to its register and the mode. -/
theorem pollTakesTheLowestPressedKey : Obligations.PollTakesTheLowestPressedKey := by
  unfold Obligations.PollTakesTheLowestPressedKey
  intro s x k hm hk hleast
  refine ⟨_, step_of_waiting hm, ?_⟩
  rw [poll_of_least_key hk hleast]
  refine ⟨?_, rfl, State.setReg_regsUnchangedExcept s x _, ?_⟩
  · rw [State.setMode_reg, State.setReg_reg_same, keyByte_toNat]
  · exact (unchangedExcept_regs_of_eq rfl).trans (State.setMode_unchangedExcept (s.setReg x _) _)

/-! ## Mode transitions (40_pipeline.md R111) -/

theorem running_step_mode (hrun : s.mode = .running) (hstep : step s = .next t) :
    (t.mode = .running ∧ s.Fetches ∧ ∃ i, decodeWord s.fetchWord = some i ∧ ∀ x, i ≠ .ldVxK x) ∨
    (∃ x, s.Fetches ∧ decodeWord s.fetchWord = some (.ldVxK x) ∧ t.mode = .waitingForKey x) ∨
    (∃ r, t.mode = .faulted r) := by
  obtain ⟨k, i, -, -, -, rfl⟩ | ⟨i, hs, hd, -, hdone⟩ | ⟨-, -, rfl⟩ | ⟨-, rfl⟩ := running_step_cases hrun hstep
  · exact .inr (.inr ⟨_, rfl⟩)
  · obtain ⟨hmode, hi⟩ | ⟨x, rfl, hmode⟩ := hdone.mode
    · exact .inl ⟨hmode.trans hrun, hs, i, hd, hi⟩
    · exact .inr (.inl ⟨x, hs, hd, hmode⟩)
  · exact .inr (.inr ⟨_, rfl⟩)
  · exact .inr (.inr ⟨_, rfl⟩)

theorem waiting_step_mode {x : Reg} (hm : s.mode = .waitingForKey x) (hstep : step s = .next t) :
    ((∀ k, s.key k = false) ∧ t.mode = .waitingForKey x) ∨
    (∃ k, s.key k = true ∧ t.mode = .running ∧ (t.reg x).toNat = k.val) := by
  obtain ⟨k, hk, -, rfl⟩ | ⟨hno, rfl⟩ := waiting_step_cases hm hstep
  · refine .inr ⟨k, hk, rfl, ?_⟩
    rw [State.setMode_reg, State.setReg_reg_same, keyByte_toNat]
  · exact .inl ⟨hno, hm⟩

/-- Of the host operations `new` and `reset` give `Running`, and the others but `step` keep the mode. -/
theorem operate_mode {op : HostOp} {q : Response} (hop : operate op s = .next (t, q)) :
    (op = .new ∨ op = .reset → t.mode = .running) ∧ (op ≠ .new → op ≠ .reset → op ≠ .step → t.mode = s.mode) := by
  cases op with
  | new => cases hop; exact ⟨fun _ => rfl, fun h => absurd rfl h⟩
  | reset => cases hop; exact ⟨fun _ => rfl, fun _ h => absurd rfl h⟩
  | step => exact ⟨by simp, fun _ _ h => absurd rfl h⟩
  | load bytes => cases hop; exact ⟨by simp, fun _ _ _ => by rw [State.load_eq]⟩
  | keyDown n => cases hop; exact ⟨by simp, fun _ _ _ => by rw [State.keyDown_eq]⟩
  | keyUp n => cases hop; exact ⟨by simp, fun _ _ _ => by rw [State.keyUp_eq]⟩
  | tickTimers | framebuffer | delayTimer | soundTimer => cases hop; exact ⟨by simp, fun _ _ _ => rfl⟩

/-- Settles O11: the three modes of a step, and the host operations one by one. -/
theorem modeTransitions : Obligations.ModeTransitions := by
  unfold Obligations.ModeTransitions
  refine ⟨fun s t => running_step_mode, fun s t x => waiting_step_mode, fun s t r hm hstep => ?_, fun op s t q => operate_mode⟩
  rw [eq_of_faulted_step hm hstep, hm]

/-! ## The one refusal (60_exceptions.md R209) -/

theorem exec_refused_iff {i : Instr} :
    exec i s = .refused .observedBlockTransfer ↔
      s.params.blockQuirk = .observedSource ∧ ∃ x, i = .ldMemVx x ∨ i = .ldVxMem x := by
  constructor
  · intro h
    obtain ⟨k, e, -⟩ | ⟨t, e, -⟩ | ⟨-, hq, hi⟩ := exec_cases i s
    · rw [h] at e; cases e
    · rw [h] at e; cases e
    · exact ⟨hq, hi⟩
  · rintro ⟨hq, x, rfl | rfl⟩
    · exact execLdMemVx_refused x s hq
    · exact execLdVxMem_refused x s hq

theorem exec_next_or_refused (i : Instr) (s : State) :
    (∃ t, exec i s = .next t) ∨ exec i s = .refused .observedBlockTransfer := by
  obtain ⟨k, e, -⟩ | ⟨t, e, -⟩ | ⟨e, -⟩ := exec_cases i s
  · exact .inl ⟨_, e⟩
  · exact .inl ⟨t, e⟩
  · exact .inr e

theorem step_next_or_refused (s : State) : (∃ t, step s = .next t) ∨ step s = .refused .observedBlockTransfer := by
  obtain ⟨r, -, e⟩ | ⟨x, -, e⟩ | ⟨i, -, -, e⟩ | ⟨-, -, e⟩ | ⟨-, -, e⟩ := step_cases s
  · exact .inl ⟨_, e⟩
  · exact .inl ⟨_, e⟩
  · rw [e]; exact exec_next_or_refused i _
  · exact .inl ⟨_, e⟩
  · exact .inl ⟨_, e⟩

theorem step_refused_iff : step s = .refused .observedBlockTransfer ↔
    s.Fetches ∧ s.params.blockQuirk = .observedSource ∧
      ∃ x, decodeWord s.fetchWord = some (.ldMemVx x) ∨ decodeWord s.fetchWord = some (.ldVxMem x) := by
  constructor
  · intro h
    obtain ⟨r, -, e⟩ | ⟨x, -, e⟩ | ⟨i, hs, hd, e⟩ | ⟨-, -, e⟩ | ⟨-, -, e⟩ := step_cases s <;> rw [h] at e
    · cases e
    · cases e
    · obtain ⟨hq, x, rfl | rfl⟩ := exec_refused_iff.1 e.symm
      · exact ⟨hs, hq, x, .inl hd⟩
      · exact ⟨hs, hq, x, .inr hd⟩
    · cases e
    · cases e
  · rintro ⟨hs, hq, x, hd | hd⟩
    · rw [step_of_fetch hs hd]; exact exec_refused_iff.2 ⟨hq, x, .inl rfl⟩
    · rw [step_of_fetch hs hd]; exact exec_refused_iff.2 ⟨hq, x, .inr rfl⟩

/-- Settles O14: only a dispatched instruction can be refused, and of those only the two block transfers. -/
theorem stepIsRefusedOnlyForObservedTransfers : Obligations.StepIsRefusedOnlyForObservedTransfers := by
  unfold Obligations.StepIsRefusedOnlyForObservedTransfers
  exact fun s => ⟨step_next_or_refused s, step_refused_iff⟩

/-- Settles O47: both transfers look at `BLOCK_QUIRK` before anything else. -/
theorem observedBlockTransferIsRefused : Obligations.ObservedBlockTransferIsRefused := by
  unfold Obligations.ObservedBlockTransferIsRefused
  exact fun s x hq => ⟨execLdMemVx_refused x s hq, execLdVxMem_refused x s hq⟩

end Sys2Proof
end

section
/-!
PROOFS. Control flow (41_flow.md R120-R128; 40_pipeline.md R108, R109; 45_keys_timers.md R180, R181): the no-op and zero-filled
memory, jumps, call and return, the key skips, and where each kind of instruction leaves `pc`.
-/

namespace Sys2Proof

open Machine

variable {i : Instr} {s t : State} {nnn : AddrField} {x : Reg} {k : FaultKind}

/-! ## Raising -/

theorem raises_of_exec_eq (h : exec i s = s.raise k) : Raises i s k :=
  ⟨_, h, rfl, State.setMode_unchangedExcept s _⟩

theorem Machine.State.raise_ne_next_of_notFaulted (hn : t.NotFaulted) : s.raise k ≠ .next t := by
  intro h
  cases h
  exact hn _ rfl

/-! ## The no-op (41_flow.md R120) -/

theorem fieldN1_eq_zero {w : Word} (h : w.toNat < 0x1000) : fieldN1 w = 0x0#4 := by
  apply BitVec.eq_of_toNat_eq
  rw [fieldN1_toNat, Nat.div_eq_of_lt h]
  rfl

/-- A fetching core at two zero bytes only moves `pc` on. -/
theorem step_of_zero_bytes (hs : s.Fetches) (hhi : s.readByte s.pc.toNat = 0) (hlo : s.readByte (s.pc.toNat + 1) = 0) :
    step s = .next (s.setPc (s.pc + 2)) := by
  have hd : decodeWord s.fetchWord = some .nop := by
    rw [State.fetchWord, hhi, hlo]
    decide
  exact step_of_fetch hs hd

/-- Settles O22: the word 0x0000 is the no-op, and R87 lists every other word of family 0 but two. -/
theorem nopChangesNothing : Obligations.NopChangesNothing := by
  unfold Obligations.NopChangesNothing
  refine ⟨by decide, fun w hw h0 hcls hret => ?_, fun s => ⟨s, rfl, trivial, .refl _ s⟩, fun s hs hhi hlo => ?_⟩
  · exact decodeWord_eq_none_iff_illegalWord.2 (.inl ⟨fieldN1_eq_zero hw, h0, hcls, hret⟩)
  · exact ⟨_, step_of_zero_bytes hs hhi hlo, hs.2.advance, State.setPc_unchangedExcept s _⟩

/-! ## Zero-filled memory -/

/-- `n` steps over zero bytes move `pc` by 2 each and change nothing else. -/
theorem operateAll_steps_of_zeroed (hs : s.Fetches) (hz : ∀ a, s.pc.toNat ≤ a → a ≤ 0xFFF → s.readByte a = 0) {n : Nat}
    (hn : s.pc.toNat + 2 * n ≤ 0x1000) :
    ∃ t, operateAll (List.replicate n .step) s = .next (t, List.replicate n (.stepped .ok)) ∧
      t.pc.toNat = s.pc.toNat + 2 * n ∧ UnchangedExcept [.pc] s t := by
  induction n with
  | zero => exact ⟨s, rfl, rfl, .refl _ s⟩
  | succ n ih =>
    obtain ⟨t, hrun, hpc, hsame⟩ := ih (by omega)
    obtain ⟨hmode, heven, hlow, -⟩ := hs
    have htmode : t.mode = .running := (hsame .mode (by decide)).trans hmode
    have hfetch : Fetchable t.pc := ⟨by omega, by omega, by omega⟩
    have hmem : ∀ a, t.readByte a = s.readByte a := hsame .memory (by decide)
    have hstep : step t = .next (t.setPc (t.pc + 2)) := by
      refine step_of_zero_bytes ⟨htmode, hfetch⟩ ?_ ?_
      · rw [hmem]; exact hz _ (by omega) (by omega)
      · rw [hmem]; exact hz _ (by omega) (by omega)
    have hok : (t.setPc (t.pc + 2)).stepResult = .ok := by rw [State.stepResult, State.setPc_mode, htmode]
    have hone := operateAll_step hstep
    rw [hok] at hone
    refine ⟨t.setPc (t.pc + 2), ?_, ?_, ?_⟩
    · rw [List.replicate_succ', List.replicate_succ']
      exact operateAll_append hrun hone
    · rw [State.setPc_pc, hfetch.advance]; omega
    · exact (hsame.trans (State.setPc_unchangedExcept t _)).mono (by simp)

/-- Settles O23: the no-ops carry `pc` to 0x1000, where the fetch check fails. -/
theorem zeroedMemoryRunsToItsEnd : Obligations.ZeroedMemoryRunsToItsEnd := by
  unfold Obligations.ZeroedMemoryRunsToItsEnd
  intro s n hs hz hn
  refine ⟨fun k hk => operateAll_steps_of_zeroed hs hz (by omega), ?_⟩
  obtain ⟨t, hrun, hpc, hsame⟩ := operateAll_steps_of_zeroed hs hz hn.le
  have hend : t.pc = 0x1000 := BitVec.eq_of_toNat_eq (hpc.trans hn)
  have htmode : t.mode = .running := (hsame .mode (by decide)).trans hs.1
  have hstep := step_of_bad_pc htmode (by rw [hend]; decide)
  rw [hend] at hstep
  refine ⟨_, ?_, rfl, hsame.trans (State.setMode_unchangedExcept t _)⟩
  rw [List.replicate_succ']
  exact operateAll_append hrun (operateAll_step hstep)

/-! ## Jumps (41_flow.md R122, R128) -/

/-- An instruction that is the write of a value worth `m` to `pc` changes `pc` alone. -/
theorem completes_setPc {a : Word} {m : Nat} (h : exec i s = .next (s.setPc a)) (ha : a.toNat = m) :
    Completes i s [.pc] fun t => t.pc.toNat = m :=
  ⟨_, h, ha, State.setPc_unchangedExcept s a⟩

/-- Settles O24: the address field is the new `pc`. -/
theorem jumpWritesPc : Obligations.JumpWritesPc := by
  unfold Obligations.JumpWritesPc
  refine fun nnn => ⟨?_, fun s => completes_setPc rfl (addrOperand_toNat nnn)⟩
  simp [wordNNN_eq]

theorem Machine.addrX_val (nnn : AddrField) : (addrX nnn).val = nnn.toNat / 0x100 := by
  have := nnn.isLt
  simp only [addrX, BitVec.val_toFin, BitVec.extractLsb'_toNat, Nat.shiftRight_eq_div_pow]
  omega

/-- The register that `BNNN` adds under each value of `JUMP_QUIRK`. -/
theorem Machine.State.jumpOffset_eq
    (hx : s.params.jumpQuirk = .v0 ∧ x = 0 ∨ s.params.jumpQuirk = .vx ∧ x.val = nnn.toNat / 0x100) :
    s.jumpOffset nnn = s.reg x := by
  obtain ⟨hq, rfl⟩ | ⟨hq, hx⟩ := hx <;> rw [State.jumpOffset, hq]
  obtain rfl : x = addrX nnn := Fin.ext (hx.trans (addrX_val nnn).symm)
  rfl

theorem exec_jpV0Addr (nnn : AddrField) (s : State) :
    exec (.jpV0Addr nnn) s = .next (s.setPc (addrOperand nnn + (s.jumpOffset nnn).setWidth 16)) := rfl

theorem completes_jpV0Addr
    (hx : s.params.jumpQuirk = .v0 ∧ x = 0 ∨ s.params.jumpQuirk = .vx ∧ x.val = nnn.toNat / 0x100) :
    Completes (.jpV0Addr nnn) s [.pc] fun t => t.pc.toNat = nnn.toNat + (s.reg x).toNat := by
  refine completes_setPc (exec_jpV0Addr nnn s) ?_
  rw [State.jumpOffset_eq hx, jumpSum_toNat]

/-- Settles O25: the sum of a 12-bit field and a byte does not wrap at 16 bits. -/
theorem jumpWithOffsetWritesPc : Obligations.JumpWithOffsetWritesPc := by
  unfold Obligations.JumpWithOffsetWritesPc
  refine fun nnn => ⟨?_, fun s hq => completes_jpV0Addr (.inl ⟨hq, rfl⟩), fun s x hq hx => completes_jpV0Addr (.inr ⟨hq, hx⟩)⟩
  simp [wordNNN_eq]

/-- Settles O38: the shift source and the jump offset are the only uses of the two fields. -/
theorem ignoredFieldsHaveNoInfluence : Obligations.IgnoredFieldsHaveNoInfluence := by
  unfold Obligations.IgnoredFieldsHaveNoInfluence
  refine ⟨fun s x y z hq => ?_, fun s t u nnn x b hq hx ht hu => ?_⟩
  · have hsrc (y : Reg) : s.shiftSource x y = s.reg x := State.shiftSource_eq (.inl ⟨hq, rfl⟩)
    simp only [exec, execShrReg, execShlReg, hsrc, and_self]
  · have hs : s.jumpOffset nnn = s.reg 0 := State.jumpOffset_eq (.inl ⟨hq, rfl⟩)
    have hb : (s.setReg x b).jumpOffset nnn = (s.setReg x b).reg 0 := State.jumpOffset_eq (.inl ⟨hq, rfl⟩)
    rw [exec_jpV0Addr, hs] at ht
    rw [exec_jpV0Addr, hb, State.setReg_reg_ne s hx.symm] at hu
    cases ht
    cases hu
    rfl

/-! ## Call and return (41_flow.md R121, R123) -/

/-- A call with room on the stack pushes the address after it and jumps. -/
theorem exec_callAddr_of_lt (nnn : AddrField) (hsp : s.sp.val < 16) :
    ∃ t, exec (.callAddr nnn) s = .next t ∧ t.pc = addrOperand nnn ∧ t.sp.val = s.sp.val + 1 ∧
      (∀ j : Reg, t.stackAt j = if j.val = s.sp.val then s.pc else s.stackAt j) ∧ UnchangedExcept [.stack, .pc] s t := by
  obtain ⟨hfull, -⟩ | ⟨-, t, hpush, e⟩ := execCallAddr_cases nnn s
  · exact absurd hsp (by rw [hfull]; decide)
  · obtain ⟨-, hup, hstack, ht⟩ := State.push_some hpush
    exact ⟨_, e, rfl, hup, hstack, (unchangedExcept_stack_of_eq ht).trans (State.setPc_unchangedExcept t _)⟩

theorem raises_callAddr (nnn : AddrField) (hsp : s.sp = 16) : Raises (.callAddr nnn) s .stackOverflow := by
  obtain ⟨-, e⟩ | ⟨hlt, -⟩ := execCallAddr_cases nnn s
  · exact raises_of_exec_eq e
  · exact absurd hlt (by rw [hsp]; decide)

/-- A return with entry `j` the most recent one jumps to it and gives it up. -/
theorem exec_ret_of_sp {j : Reg} (hsp : s.sp.val = j.val + 1) :
    ∃ t, exec .ret s = .next t ∧ t.pc = s.stackAt j ∧ t.sp.val = j.val ∧ (∀ k, t.stackAt k = s.stackAt k) ∧
      UnchangedExcept [.stack, .pc] s t := by
  obtain ⟨hempty, -⟩ | ⟨q, p, hq, hp, e⟩ := execRet_cases s
  · exact absurd hsp (by rw [hempty]; exact (Nat.succ_ne_zero _).symm)
  · obtain rfl : q = j := Fin.ext (by omega)
    exact ⟨_, e, rfl, hp, fun _ => rfl, (unchangedExcept_stack_of_eq rfl).trans (State.setPc_unchangedExcept { s with sp := p } _)⟩

theorem raises_ret (hsp : s.sp = 0) : Raises .ret s .stackUnderflow := by
  obtain ⟨-, e⟩ | ⟨j, p, hj, -⟩ := execRet_cases s
  · exact raises_of_exec_eq e
  · exact absurd hj (by rw [hsp]; exact (Nat.succ_ne_zero _).symm)

/-- Settles O26: the push writes the entry at `sp`, and fails with 16 entries in use. -/
theorem callPushesOrOverflows : Obligations.CallPushesOrOverflows := by
  unfold Obligations.CallPushesOrOverflows
  refine fun nnn => ⟨by simp [wordNNN_eq], fun s j hsp => ?_, fun s => raises_callAddr nnn⟩
  obtain ⟨t, e, hpc, hup, hstack, hsame⟩ := exec_callAddr_of_lt nnn (hsp ▸ j.isLt)
  refine ⟨t, e, ⟨?_, ?_, ?_, fun k hk => ?_⟩, hsame.mono (by simp)⟩
  · rw [hpc, addrOperand_toNat]
  · rw [hup, hsp]
  · rw [hstack, if_pos hsp.symm]
  · rw [hstack, if_neg fun h => hk (Fin.ext (h.trans hsp))]

/-- Settles O27: the pop reads the entry below `sp`, and fails with none in use. -/
theorem returnPopsOrUnderflows : Obligations.ReturnPopsOrUnderflows := by
  unfold Obligations.ReturnPopsOrUnderflows
  refine ⟨by decide, fun s j hsp => ?_, fun s => raises_ret⟩
  obtain ⟨t, e, hpc, hdown, hstack, hsame⟩ := exec_ret_of_sp hsp
  exact ⟨t, e, ⟨hpc, hdown, hstack⟩, hsame.mono (by simp)⟩

/-- Settles O28: the return pops the entry that the call pushed. -/
theorem returnUndoesCall : Obligations.ReturnUndoesCall := by
  unfold Obligations.ReturnUndoesCall
  intro s nnn hsp
  obtain ⟨t, e, -, hup, hstack, -⟩ := exec_callAddr_of_lt nnn hsp
  refine ⟨t, e, fun u husp hustack => ?_⟩
  have hu : u.sp.val = (⟨s.sp.val, hsp⟩ : Reg).val + 1 := by rw [husp, hup]
  obtain ⟨w, ew, hwpc, hwsp, -⟩ := exec_ret_of_sp hu
  refine ⟨w, ew, ?_, Fin.ext hwsp⟩
  have htop : t.stackAt ⟨s.sp.val, hsp⟩ = s.pc := by rw [hstack, if_pos rfl]
  rw [hwpc, State.stackAt, hustack]
  exact htop

/-! ## The key skips (45_keys_timers.md R180, R181) -/

theorem Machine.State.skipOnKey_of_key {q : Reg} (hq : (s.reg x).toNat = q.val) (pressed : Bool) :
    s.skipOnKey x pressed = .next (s.skipIf (s.key q == pressed)) := by
  rw [State.skipOnKey, keyOperand_eq_some.2 hq]

theorem Machine.State.skipOnKey_of_gt (hx : 15 < (s.reg x).toNat) (pressed : Bool) :
    s.skipOnKey x pressed = s.raise (.keyIndexOutOfRange (s.reg x)) := by
  rw [State.skipOnKey, keyOperand_eq_none.2 hx]

theorem completes_skp {q : Reg} (hq : (s.reg x).toNat = q.val) :
    Completes (.skp x) s [.pc] fun t => t.pc = if s.key q = true then s.pc + 2 else s.pc := by
  simpa using completes_skipIf (i := .skp x) (State.skipOnKey_of_key hq true)

theorem completes_sknp {q : Reg} (hq : (s.reg x).toNat = q.val) :
    Completes (.sknp x) s [.pc] fun t => t.pc = if s.key q = true then s.pc else s.pc + 2 := by
  refine (completes_skipIf (i := .sknp x) (State.skipOnKey_of_key hq false)).mono fun t ht => ?_
  rw [ht]
  cases s.key q <;> rfl

theorem decodeWord_wordXNN_E (x : Reg) (nn : Byte) : decodeWord (wordXNN 0xE x nn) = decodeFamilyE x nn := by
  rw [wordXNN_eq, decodeWord_encodeXNN_E]

/-- Settles O48: a register up to 15 names a key, whose state is the condition of the skip; above 15 it names none. -/
theorem keySkips : Obligations.KeySkips := by
  unfold Obligations.KeySkips
  refine fun x => ⟨decodeWord_wordXNN_E x 0x9E, decodeWord_wordXNN_E x 0xA1,
    fun s q hq => ⟨completes_skp hq, completes_sknp hq⟩, fun s hx => ⟨?_, ?_⟩⟩
  · exact raises_of_exec_eq (State.skipOnKey_of_gt hx true)
  · exact raises_of_exec_eq (State.skipOnKey_of_gt hx false)

/-- Settles O50: the instruction is the write of the mode. -/
theorem keyWaitIsEntered : Obligations.KeyWaitIsEntered := by
  unfold Obligations.KeyWaitIsEntered
  exact fun x => ⟨decodeWord_wordXNN_F x 0x0A, fun s => ⟨_, rfl, rfl, State.setMode_unchangedExcept s _⟩⟩

/-! ## The next `pc` (40_pipeline.md R109) -/

theorem exec_eq_setPc_of_skipIf {c : Bool} (h : exec i s = .next (s.skipIf c)) (hc : c = true) :
    exec i s = .next (s.setPc (s.pc + 2)) := by
  rw [h, hc, State.skipIf_true]

theorem exec_of_skipTaken (h : skipTaken i s) : exec i s = .next (s.setPc (s.pc + 2)) := by
  cases i with
  | seByte | seReg => exact exec_eq_setPc_of_skipIf rfl (beq_iff_eq.2 h)
  | sneByte | sneReg => exact exec_eq_setPc_of_skipIf rfl (bne_iff_ne.2 h)
  | skp x =>
    obtain ⟨q, hq, hkey⟩ := h
    exact exec_eq_setPc_of_skipIf (State.skipOnKey_of_key hq true) (beq_iff_eq.2 hkey)
  | sknp x =>
    obtain ⟨q, hq, hkey⟩ := h
    exact exec_eq_setPc_of_skipIf (State.skipOnKey_of_key hq false) (beq_iff_eq.2 hkey)
  | _ => exact False.elim h

theorem pc_of_exec_skipIf {c : Bool} (h : Host.Outcome.next (s.skipIf c) = (.next t : Answer)) (hc : ¬ c = true) :
    t.pc = s.pc := by
  cases h
  rw [Bool.eq_false_of_not_eq_true hc, State.skipIf_false]

theorem pc_of_skipOnKey {pressed : Bool} (h : s.skipOnKey x pressed = .next t)
    (hskip : ¬ ∃ q : Reg, (s.reg x).toNat = q.val ∧ s.key q = pressed) : t.pc = s.pc := by
  obtain ⟨-, e⟩ | ⟨q, hq, e⟩ := s.skipOnKey_cases x pressed <;> rw [e] at h
  · cases h; rfl
  · exact pc_of_exec_skipIf h fun hc => hskip ⟨q, hq, beq_iff_eq.1 hc⟩

/-- An instruction that neither skips nor jumps leaves `pc` where the fetch advance put it. -/
theorem pc_of_exec_sequential (h : exec i s = .next t) (hskip : ¬ skipTaken i s) (hret : i ≠ .ret)
    (hjump : ∀ nnn, i ≠ .jpAddr nnn ∧ i ≠ .callAddr nnn ∧ i ≠ .jpV0Addr nnn) : t.pc = s.pc := by
  cases i with
  | ret => exact absurd rfl hret
  | jpAddr nnn => exact absurd rfl (hjump nnn).1
  | callAddr nnn => exact absurd rfl (hjump nnn).2.1
  | jpV0Addr nnn => exact absurd rfl (hjump nnn).2.2
  | seByte | seReg => exact pc_of_exec_skipIf h fun hc => hskip (beq_iff_eq.1 hc)
  | sneByte | sneReg => exact pc_of_exec_skipIf h fun hc => hskip (bne_iff_ne.1 hc)
  | skp x => exact pc_of_skipOnKey h hskip
  | sknp x => exact pc_of_skipOnKey h hskip
  | _ => exact exec_changesOnly _ s t h .pc (by simp [Instr.writes])

theorem pc_of_exec_callAddr (h : exec (.callAddr nnn) s = .next t) (hn : t.NotFaulted) : t.pc = addrOperand nnn := by
  obtain ⟨-, e⟩ | ⟨-, u, -, e⟩ := execCallAddr_cases nnn s
  · exact absurd (e.symm.trans h) (State.raise_ne_next_of_notFaulted hn)
  · cases e.symm.trans h; rfl

theorem pc_of_exec_ret (h : exec .ret s = .next t) (hn : t.NotFaulted) :
    ∃ j : Reg, s.sp.val = j.val + 1 ∧ t.pc = s.stackAt j := by
  obtain ⟨-, e⟩ | ⟨j, p, hj, -, e⟩ := execRet_cases s
  · exact absurd (e.symm.trans h) (State.raise_ne_next_of_notFaulted hn)
  · cases e.symm.trans h; exact ⟨j, hj, rfl⟩

/-- The condition of a skip does not look at `pc`. -/
theorem skipTaken_setPc (i : Instr) (s : State) (a : Word) : skipTaken i (s.setPc a) ↔ skipTaken i s := by
  cases i <;> rfl

/-- Settles O12: kind by kind, on the state that the fetch advance leaves. -/
theorem nextPcByKind : Obligations.NextPcByKind := by
  unfold Obligations.NextPcByKind
  intro s t i hs hd hstep hn
  have hadv : (s.pc + 2).toNat = s.pc.toNat + 2 := hs.2.advance
  have hle : (s.pc + 2).toNat ≤ 0x1000 := hs.2.advance_le
  have hexec : exec i (s.setPc (s.pc + 2)) = .next t := (step_of_fetch hs hd).symm.trans hstep
  refine ⟨fun hskip => ?_, fun nnn hi => ?_, fun nnn x hi hx => ?_, fun hi => ?_, fun hskip hret hjump => ?_⟩
  · have e := exec_of_skipTaken ((skipTaken_setPc i s (s.pc + 2)).2 hskip)
    cases e.symm.trans hexec
    simp only [State.setPc_pc]
    bv_omega
  · obtain rfl | rfl := hi
    · cases hexec; exact addrOperand_toNat nnn
    · rw [pc_of_exec_callAddr hexec hn, addrOperand_toNat]
  · subst hi
    obtain ⟨u, e, hpc, -⟩ := completes_jpV0Addr (s := s.setPc (s.pc + 2)) hx
    cases e.symm.trans hexec
    exact hpc
  · subst hi
    obtain ⟨j, hj, hpc⟩ := pc_of_exec_ret hexec hn
    exact ⟨j, hj, hpc⟩
  · rw [pc_of_exec_sequential hexec (fun h => hskip ((skipTaken_setPc i s _).1 h)) hret hjump]
    exact hadv

end Sys2Proof
end

section
/-!
PROOFS. The index and memory (20_memory.md R58-R63; 44_index_memory.md R171-R176), and the random byte (43_alu.md R163): reads and
writes, the three transfers through `I`, and the faults that a transfer or a draw raises before its first write.
-/

namespace Sys2Proof

open Machine

variable {i : Instr} {s t : State} {x : Reg}

/-! ## One byte (20_memory.md R61) -/

/-- Settles O20: `readByte` after `writeByte`, at the address written and elsewhere. -/
theorem readsSeeTheLatestWrite : Obligations.ReadsSeeTheLatestWrite := by
  unfold Obligations.ReadsSeeTheLatestWrite
  refine fun s a c b => ⟨?_, fun hc => ?_, fun hwf ha => State.writeByte_wf hwf ha b⟩
  · rw [State.writeByte_readByte, if_pos rfl]
  · rw [State.writeByte_readByte, if_neg hc]

/-! ## The random byte and `FX1E` -/

theorem exec_rndByte (x : Reg) (nn : Byte) (s : State) :
    exec (.rndByte x nn) s = .next ((s.setReg x (Config.randomByte s.draws &&& nn)).countDraw) := rfl

/-- Settles O39: the masked byte goes to one register, and one more byte has been drawn. -/
theorem randomByteIsMasked : Obligations.RandomByteIsMasked := by
  unfold Obligations.RandomByteIsMasked
  refine fun x nn => ⟨by simp [wordXNN_eq], fun s => ⟨_, exec_rndByte x nn s, ⟨fun k _ => ?_, fun hnn => ?_, rfl, ?_⟩, ?_⟩⟩
  · rw [State.countDraw_reg, State.setReg_reg_same, BitVec.getLsbD_and]
  · rw [State.countDraw_reg, State.setReg_reg_same, hnn]
    exact BitVec.and_zero
  · exact State.setReg_regsUnchangedExcept s x _
  · exact (unchangedExcept_regs_of_eq rfl).trans (State.countDraw_unchangedExcept (s.setReg x _))

/-- Settles O41: the sum of two words is taken modulo 65536. -/
theorem indexAddWrapsAtSixteenBits : Obligations.IndexAddWrapsAtSixteenBits := by
  unfold Obligations.IndexAddWrapsAtSixteenBits
  refine fun x => ⟨decodeWord_wordXNN_F x 0x1E, fun s => completes_setI rfl ?_⟩
  have hx : ((s.reg x).setWidth 16).toNat = (s.reg x).toNat := BitVec.toNat_setWidth_of_le (by decide)
  rw [BitVec.toNat_add, hx]

/-! ## Stores through `I` (44_index_memory.md R173, R174) -/

theorem Machine.State.dataAddr_eq (s : State) (k : Nat) : s.dataAddr k = s.dataAddr 0 + k := rfl

/-- An instruction that is the store of bytes from `a` on changes memory alone, and there the bytes stored. -/
theorem completes_storeBytes {a : Nat} {bs : List Byte} (h : exec i s = .next (s.storeBytes a bs)) :
    Completes i s [.memory] fun t =>
      (∀ k < bs.length, t.readByte (a + k) = bs.getD k 0) ∧
      ∀ c, c < a ∨ a + bs.length ≤ c → t.readByte c = s.readByte c := by
  refine ⟨_, h, ⟨fun k hk => ?_, fun c hc => ?_⟩, State.storeBytes_unchangedExcept s a bs⟩
  · rw [State.storeBytes_readByte, if_pos ⟨by omega, by omega⟩, Nat.add_sub_cancel_left]
  · rw [State.storeBytes_readByte, if_neg (by omega)]

theorem exec_ldBVx_of_le (hr : s.dataAddr 2 ≤ 0xFFF) (hp : s.params.protectLowMemory = true → 0x200 ≤ s.dataAddr 0) :
    exec (.ldBVx x) s = .next (s.storeBytes (s.dataAddr 0) (bcdDigits (s.reg x))) := by
  rw [exec, execLdBVx_eq, ← State.dataAddr_eq, if_neg hr.not_gt, if_neg fun h => (hp h.1).not_gt h.2]

theorem exec_ldMemVx_of_le (hq : s.params.blockQuirk = .conventional) (hr : s.dataAddr x.val ≤ 0xFFF)
    (hp : s.params.protectLowMemory = true → 0x200 ≤ s.dataAddr 0) :
    exec (.ldMemVx x) s = .next (s.storeBytes (s.dataAddr 0) (s.regsUpTo x)) := by
  rw [exec, execLdMemVx_eq x s hq, ← State.dataAddr_eq, if_neg hr.not_gt, if_neg fun h => (hp h.1).not_gt h.2]

/-- Settles O42: the store of the three digits at `I`. -/
theorem bcdStoresThreeDigits : Obligations.BcdStoresThreeDigits := by
  unfold Obligations.BcdStoresThreeDigits
  refine fun x => ⟨decodeWord_wordXNN_F x 0x33, fun s hr hp => ?_⟩
  refine (completes_storeBytes (exec_ldBVx_of_le hr hp)).mono fun t ⟨hin, hout⟩ => ?_
  have hb := (s.reg x).isLt
  refine ⟨?_, ?_, ?_, hout⟩
  · have h0 : t.readByte (s.dataAddr 0) = BitVec.ofNat 8 ((s.reg x).toNat / 100) := hin 0 (by simp)
    rw [h0, BitVec.toNat_ofNat]; omega
  · have h1 : t.readByte (s.dataAddr 1) = BitVec.ofNat 8 ((s.reg x).toNat / 10 % 10) := hin 1 (by simp)
    rw [h1, BitVec.toNat_ofNat]; omega
  · have h2 : t.readByte (s.dataAddr 2) = BitVec.ofNat 8 ((s.reg x).toNat % 10) := hin 2 (by simp)
    rw [h2, BitVec.toNat_ofNat]; omega

theorem completes_ldMemVx (hq : s.params.blockQuirk = .conventional) (hr : s.dataAddr x.val ≤ 0xFFF)
    (hp : s.params.protectLowMemory = true → 0x200 ≤ s.dataAddr 0) :
    Completes (.ldMemVx x) s [.memory] fun t =>
      (∀ r, r ≤ x → t.readByte (s.dataAddr r.val) = s.reg r) ∧
      ∀ a, a < s.dataAddr 0 ∨ s.dataAddr (x.val + 1) ≤ a → t.readByte a = s.readByte a := by
  refine (completes_storeBytes (exec_ldMemVx_of_le hq hr hp)).mono fun t ⟨hin, hout⟩ => ⟨fun r hrx => ?_, fun a ha => ?_⟩
  · rw [State.dataAddr_eq, hin r.val (by simpa using Nat.lt_succ_of_le hrx), State.regsUpTo_getD s hrx]
  · exact hout a (by simpa [State.regsUpTo_length, ← State.dataAddr_eq] using ha)

/-- Settles O43: the store of the registers up to `X` at `I`. -/
theorem blockStoreStoresRegisters : Obligations.BlockStoreStoresRegisters := by
  unfold Obligations.BlockStoreStoresRegisters
  exact fun x => ⟨decodeWord_wordXNN_F x 0x55, fun s hq hr hp => completes_ldMemVx hq hr hp⟩

theorem Machine.State.fetchWord_toNat (s : State) :
    s.fetchWord.toNat = (s.readByte s.pc.toNat).toNat * 256 + (s.readByte (s.pc.toNat + 1)).toNat := by
  rw [State.fetchWord, BitVec.toNat_append, ← Nat.shiftLeft_add_eq_or_of_lt (BitVec.isLt _), Nat.shiftLeft_eq]

/-- Settles O21: the store keeps `pc`, and the two bytes there are those of two neighbouring registers. -/
theorem fetchSeesThePrecedingStore : Obligations.FetchSeesThePrecedingStore := by
  unfold Obligations.FetchSeesThePrecedingStore
  intro s x k l hq hp hr hkl hlx hpc
  obtain ⟨t, e, ⟨hin, -⟩, hsame⟩ := completes_ldMemVx hq hr (x := x) (by simp [hp])
  have htpc : t.pc = s.pc := hsame .pc (by decide)
  have hkx : k ≤ x := le_trans (Fin.le_def.2 (by omega)) hlx
  have hnext : s.pc.toNat + 1 = s.dataAddr l.val := by rw [hpc, State.dataAddr, State.dataAddr]; omega
  refine ⟨t, e, htpc, ?_⟩
  rw [State.fetchWord_toNat, htpc, hnext, hpc, hin k hkx, hin l hlx]

/-! ## Loads through `I` (44_index_memory.md R175) -/

theorem exec_ldVxMem_of_le (hq : s.params.blockQuirk = .conventional) (hr : s.dataAddr x.val ≤ 0xFFF) :
    exec (.ldVxMem x) s = .next (s.loadRegs x) := by
  rw [exec, execLdVxMem_eq x s hq, ← State.dataAddr_eq, if_neg hr.not_gt]

/-- Settles O44: the load writes the registers up to `X` and looks at no protection. -/
theorem blockLoadLoadsRegisters : Obligations.BlockLoadLoadsRegisters := by
  unfold Obligations.BlockLoadLoadsRegisters
  refine fun x => ⟨decodeWord_wordXNN_F x 0x65, fun s hq hr => ?_⟩
  refine ⟨_, exec_ldVxMem_of_le hq hr, ⟨fun r hrx => ?_, fun r hxr => ?_⟩, unchangedExcept_regs_of_eq rfl⟩
  · rw [State.loadRegs_reg, if_pos hrx]
  · rw [State.loadRegs_reg, if_neg hxr.not_ge]

/-! ## Faults of an access (20_memory.md R58, R59) -/

theorem raises_drw_of_range {n : Nat} (y : Reg) (hn : 0 < n) (hr : 0xFFF < s.dataAddr (n - 1)) :
    Raises (.drw x y n) s (.memoryOutOfRange (max (s.dataAddr 0) 0x1000)) := by
  have hpast : 0xFFF < s.dataAddr 0 + n - 1 := by
    rw [State.dataAddr_eq] at hr
    omega
  refine raises_of_exec_eq ?_
  rw [exec, execDrw_eq, if_pos ⟨hn, hpast⟩]

theorem raises_ldBVx_of_range (hr : 0xFFF < s.dataAddr 2) :
    Raises (.ldBVx x) s (.memoryOutOfRange (max (s.dataAddr 0) 0x1000)) := by
  refine raises_of_exec_eq ?_
  rw [exec, execLdBVx_eq, ← State.dataAddr_eq, if_pos hr]

theorem raises_ldMemVx_of_range (hq : s.params.blockQuirk = .conventional) (hr : 0xFFF < s.dataAddr x.val) :
    Raises (.ldMemVx x) s (.memoryOutOfRange (max (s.dataAddr 0) 0x1000)) := by
  refine raises_of_exec_eq ?_
  rw [exec, execLdMemVx_eq x s hq, ← State.dataAddr_eq, if_pos hr]

theorem raises_ldVxMem_of_range (hq : s.params.blockQuirk = .conventional) (hr : 0xFFF < s.dataAddr x.val) :
    Raises (.ldVxMem x) s (.memoryOutOfRange (max (s.dataAddr 0) 0x1000)) := by
  refine raises_of_exec_eq ?_
  rw [exec, execLdVxMem_eq x s hq, ← State.dataAddr_eq, if_pos hr]

/-- Settles O45: each of the four checks its range before anything else. -/
theorem accessPastMemoryRaises : Obligations.AccessPastMemoryRaises := by
  unfold Obligations.AccessPastMemoryRaises
  exact fun s x y n => ⟨raises_drw_of_range y, raises_ldBVx_of_range,
    fun hq hr => ⟨raises_ldMemVx_of_range hq hr, raises_ldVxMem_of_range hq hr⟩⟩

/-- Settles O46: a store that begins below 0x200 ends inside memory, so the protection is what stops it. -/
theorem protectedStoreRaises : Obligations.ProtectedStoreRaises := by
  unfold Obligations.ProtectedStoreRaises
  refine fun s x hp hlow => ⟨raises_of_exec_eq ?_, fun hq => raises_of_exec_eq ?_⟩
  · rw [exec, execLdBVx_eq, if_neg (by omega), if_pos ⟨hp, hlow⟩]
  · rw [exec, execLdMemVx_eq x s hq, if_neg (by omega), if_pos ⟨hp, hlow⟩]

end Sys2Proof
end

section
/-!
PROOFS. Drawing a sprite (42_display.md R140-R143): the cells on which a set bit lands are inverted, `VF` says whether one of them
was set, and a second draw undoes the first.
-/

namespace Sys2Proof

open Machine

variable {s t : State} {x y : Reg} {n : Nat}

/-! ## The cells that a sprite covers (42_display.md R140) -/

/-- A set bit of one of the `n` bytes at `I` lands on cell `(py, px)`, drawn at the position that `V[x]` and `V[y]` hold. -/
def Covers (s : State) (x y : Reg) (n : Nat) (py : Fin 32) (px : Fin 64) : Prop :=
  ∃ row < n, ∃ col < 8, (s.readByte (s.i.toNat + row)).getLsbD (7 - col) = true ∧
    py.val = ((s.reg y).toNat + row) % 32 ∧ px.val = ((s.reg x).toNat + col) % 64

/-- The same by the places of the drawing loops. -/
theorem covers_iff {py : Fin 32} {px : Fin 64} : Covers s x y n py px ↔
    ∃ row < n, ∃ col < 8, spriteBit (s.readByte (s.dataAddr row)) col = true ∧
      py = spriteY (s.reg y) row ∧ px = spriteX (s.reg x) col := by
  simp only [Covers, Fin.ext_iff, spriteBit, State.dataAddr, spriteY, spriteX, Fin.ofNat]

/-- What the sprite covers depends on memory, `I` and the two position registers alone. -/
theorem covers_congr (hmem : ∀ a, t.readByte a = s.readByte a) (hi : t.i = s.i) (hx : t.reg x = s.reg x) (hy : t.reg y = s.reg y)
    {py : Fin 32} {px : Fin 64} : Covers t x y n py px ↔ Covers s x y n py px := by
  simp only [Covers, hmem, hi, hx, hy]

/-! ## What a draw does -/

theorem drawSprite_cell_of_covers (hn : n ≤ 32) {py : Fin 32} {px : Fin 64} (h : Covers s x y n py px) :
    FrameBuffer.cell (s.drawSprite (s.reg x) (s.reg y) n).1 py px = !s.pixel py px := by
  obtain ⟨row, hrow, col, hcol, hbit, rfl, rfl⟩ := covers_iff.1 h
  exact State.drawSprite_cell_hit hn hrow hcol hbit

theorem drawSprite_cell_of_not_covers {py : Fin 32} {px : Fin 64} (h : ¬ Covers s x y n py px) :
    FrameBuffer.cell (s.drawSprite (s.reg x) (s.reg y) n).1 py px = s.pixel py px :=
  State.drawSprite_cell_other fun row hrow col hcol hbit hcell =>
    h (covers_iff.2 ⟨row, hrow, col, hcol, hbit, hcell.1, hcell.2⟩)

theorem drawSprite_collide_iff (hn : n ≤ 32) : (s.drawSprite (s.reg x) (s.reg y) n).2 = true ↔
    ∃ py px, Covers s x y n py px ∧ s.pixel py px = true := by
  rw [State.drawSprite_collide hn]
  constructor
  · rintro ⟨row, hrow, col, hcol, hbit, hset⟩
    exact ⟨_, _, covers_iff.2 ⟨row, hrow, col, hcol, hbit, rfl, rfl⟩, hset⟩
  · rintro ⟨py, px, hcov, hset⟩
    obtain ⟨row, hrow, col, hcol, hbit, rfl, rfl⟩ := covers_iff.1 hcov
    exact ⟨row, hrow, col, hcol, hbit, hset⟩

/-- The answer of a draw inside memory: the covered cells inverted, the collision in `VF`, and nothing else changed. -/
structure Drawn (s : State) (x y : Reg) (n : Nat) (t : State) : Prop where
  /-- A covered cell is inverted. -/
  hit : ∀ py px, Covers s x y n py px → t.pixel py px = !s.pixel py px
  /-- Any other cell keeps its value. -/
  other : ∀ py px, ¬ Covers s x y n py px → t.pixel py px = s.pixel py px
  /-- `VF` is 1 exactly when a covered cell was set. -/
  flag_one : t.reg regF = 1 ↔ ∃ py px, Covers s x y n py px ∧ s.pixel py px = true
  /-- `VF` is 0 exactly when none was. -/
  flag_zero : t.reg regF = 0 ↔ ¬ ∃ py px, Covers s x y n py px ∧ s.pixel py px = true
  /-- The other registers stay. -/
  regs : RegsUnchangedExcept [regF] s t
  /-- The other parts stay. -/
  frame : UnchangedExcept [.display, .regs] s t

theorem flagByte_eq_one_iff {b : Bool} : flagByte b = 1 ↔ b = true := by cases b <;> decide

theorem flagByte_eq_zero_iff {b : Bool} : flagByte b = 0 ↔ ¬ b = true := by cases b <;> decide

theorem exec_drw_drawn (x y : Reg) (hn : n ≤ 32) (hr : n = 0 ∨ s.i.toNat + n - 1 ≤ 0xFFF) :
    ∃ t, exec (.drw x y n) s = .next t ∧ Drawn s x y n t := by
  refine ⟨_, (execDrw_eq x y n s).trans (if_neg (by rw [State.dataAddr_zero]; omega)), ?_⟩
  exact
    { hit := fun py px h => drawSprite_cell_of_covers hn h
      other := fun py px h => drawSprite_cell_of_not_covers h
      flag_one := by rw [State.setReg_reg_same, flagByte_eq_one_iff, drawSprite_collide_iff hn]
      flag_zero := by rw [State.setReg_reg_same, flagByte_eq_zero_iff, drawSprite_collide_iff hn]
      regs := State.setReg_regsUnchangedExcept (s.setFb _) regF _
      frame := (State.setFb_unchangedExcept s _).trans (unchangedExcept_regs_of_eq rfl) }

/-- A draw changes the covered cells and no other, so a cell that went from `b` to `!b` is a covered cell that held `b`. -/
theorem Drawn.flipped_iff (h : Drawn s x y n t) (b : Bool) :
    (∃ py px, s.pixel py px = b ∧ t.pixel py px = !b) ↔ ∃ py px, Covers s x y n py px ∧ s.pixel py px = b := by
  constructor
  · rintro ⟨py, px, hs, ht⟩
    refine ⟨py, px, ?_, hs⟩
    by_contra hcov
    rw [h.other py px hcov, hs] at ht
    cases b <;> cases ht
  · rintro ⟨py, px, hcov, hs⟩
    exact ⟨py, px, hs, by rw [h.hit py px hcov, hs]⟩

/-- Settles O32: the drawing loops invert the covered cells, each once. -/
theorem drawInvertsCoveredCells : Obligations.DrawInvertsCoveredCells := by
  unfold Obligations.DrawInvertsCoveredCells
  intro x y n hn
  refine ⟨by simp [wordXYN_eq _ x y hn, Nat.mod_eq_of_lt hn], fun s hr => ?_⟩
  obtain ⟨t, e, h⟩ := exec_drw_drawn x y (by omega) hr
  refine ⟨t, e, ⟨fun py px => ⟨h.hit py px, h.other py px⟩, fun hcleared => ?_, fun hkept => ?_, h.regs⟩, h.frame⟩
  · exact h.flag_one.2 ((h.flipped_iff true).1 hcleared)
  · exact h.flag_zero.2 fun hcov => hkept ((h.flipped_iff true).2 hcov)

/-! ## Drawing twice (95_test_vectors.md S8) -/

/-- The first draw leaves the position, the sprite and so the covered cells as they were. -/
theorem Drawn.covers_iff (h : Drawn s x y n t) (hx : x ≠ regF) (hy : y ≠ regF) {py : Fin 32} {px : Fin 64} :
    Covers t x y n py px ↔ Covers s x y n py px :=
  covers_congr (h.frame .memory (by decide)) (h.frame .index (by decide)) (h.regs x (by simpa using hx))
    (h.regs y (by simpa using hy))

/-- The cells that the second draw finds set are those that the first one set. -/
theorem Drawn.covered_set_iff (h : Drawn s x y n t) (hx : x ≠ regF) (hy : y ≠ regF) :
    (∃ py px, Covers t x y n py px ∧ t.pixel py px = true) ↔ ∃ py px, s.pixel py px = false ∧ t.pixel py px = true := by
  refine .trans ?_ (h.flipped_iff false).symm
  refine exists_congr fun py => exists_congr fun px => ?_
  rw [h.covers_iff hx hy]
  refine and_congr_right fun hcov => ?_
  rw [h.hit py px hcov, Bool.not_eq_true']

/-- Settles O33: both draws cover the same cells, and inverting a cell twice restores it. -/
theorem drawTwiceRestores : Obligations.DrawTwiceRestores := by
  unfold Obligations.DrawTwiceRestores
  intro s x y n hn hx hy hr
  have hn : n ≤ 32 := by omega
  obtain ⟨t, et, ht⟩ := exec_drw_drawn x y hn hr
  have hi : t.i = s.i := ht.frame .index (by decide)
  obtain ⟨u, eu, hu⟩ := exec_drw_drawn (s := t) x y hn (by rwa [hi])
  refine ⟨t, u, et, eu, fun py px => ?_, ?_, ?_⟩
  · by_cases hcov : Covers s x y n py px
    · rw [hu.hit py px ((ht.covers_iff hx hy).2 hcov), ht.hit py px hcov, Bool.not_not]
    · rw [hu.other py px (mt (ht.covers_iff hx hy).1 hcov), ht.other py px hcov]
  · rw [hu.flag_one, ht.covered_set_iff hx hy]
  · rw [hu.flag_zero, ht.covered_set_iff hx hy]

end Sys2Proof
end

section
/-!
PROOFS. The host operations (60_exceptions.md R199-R202; 70_reset_and_hazards.md R221, R223): ticks, the keypad setters, a load that
fits, and reset.
-/

namespace Sys2Proof

open Machine

variable {s t : State} {q k : Reg} {n : Nat}

/-! ## Ticks (60_exceptions.md R199-R201) -/

theorem Machine.tickTimer_toNat (b : Byte) : (tickTimer b).toNat = b.toNat - 1 := by
  unfold tickTimer
  split
  · next h => rw [h]; rfl
  · bv_omega

theorem Machine.State.tickTimers_cue (s : State) : s.tickTimers.2 = true ↔ s.st.toNat = 1 := by
  rw [State.tickTimers, beq_iff_eq, ← BitVec.toNat_inj]
  rfl

/-- Settles O51: each timer goes down by one, clamped at 0, and the cue looks at `ST` before the tick. -/
theorem tickDecrementsTimers : Obligations.TickDecrementsTimers := by
  unfold Obligations.TickDecrementsTimers
  exact fun s => ⟨tickTimer_toNat s.dt, tickTimer_toNat s.st, s.tickTimers_cue,
    unchangedExcept_of_timers_eq rfl (.inl (by simp)) (.inl (by simp))⟩

/-- What one tick takes, `n` ticks take `n` times. -/
theorem iterate_tickTimers_toNat (s : State) (n : Nat) :
    ((fun t : State => t.tickTimers.1)^[n] s).dt.toNat = s.dt.toNat - n ∧
    ((fun t : State => t.tickTimers.1)^[n] s).st.toNat = s.st.toNat - n := by
  induction n with
  | zero => exact ⟨rfl, rfl⟩
  | succ n ih =>
    obtain ⟨hdt, hst⟩ := ih
    rw [Function.iterate_succ_apply']
    constructor
    · exact (tickTimer_toNat _).trans (by rw [hdt, Nat.sub_sub])
    · exact (tickTimer_toNat _).trans (by rw [hst, Nat.sub_sub])

/-- Settles O52: by induction on the ticks; the cue comes when `n` of them have left `ST` at 1. -/
theorem ticksCountDownToZero : Obligations.TicksCountDownToZero := by
  unfold Obligations.TicksCountDownToZero
  intro s n
  obtain ⟨hdt, hst⟩ := iterate_tickTimers_toNat s n
  refine ⟨hdt, hst, ?_⟩
  rw [State.tickTimers_cue, hst]
  omega

/-! ## The keypad setters (60_exceptions.md R202) -/

/-- A state that differs in its keypad alone has changed the keypad alone. -/
theorem unchangedExcept_keypad_of_eq (h : t = { s with keypad := t.keypad }) : UnchangedExcept [.keypad] s t := by
  rw [h]
  intro p hp
  have hs := p.same_refl s
  cases p with
  | keypad => exact absurd (List.mem_singleton_self _) hp
  | _ => exact hs

theorem Machine.State.keyDown_key (s : State) (k q : Reg) : (s.keyDown k.val).key q = if q = k then true else s.key q := by
  rw [State.keyDown, dif_pos k.isLt, State.setKey_key]

theorem Machine.State.keyUp_key (s : State) (k q : Reg) : (s.keyUp k.val).key q = if q = k then false else s.key q := by
  rw [State.keyUp, dif_pos k.isLt, State.setKey_key]

/-- Settles O53: an index below 16 names one key; one of 16 or more fails the setters' check. -/
theorem keySettersChangeOneKey : Obligations.KeySettersChangeOneKey := by
  unfold Obligations.KeySettersChangeOneKey
  refine ⟨fun s k => ⟨?_, ?_, fun q hq => ⟨?_, ?_⟩, ?_, ?_⟩, fun s n hn => ⟨dif_neg hn.not_gt, dif_neg hn.not_gt⟩⟩
  · rw [State.keyDown_key, if_pos rfl]
  · rw [State.keyUp_key, if_pos rfl]
  · rw [State.keyDown_key, if_neg hq]
  · rw [State.keyUp_key, if_neg hq]
  · exact unchangedExcept_keypad_of_eq (s.keyDown_eq k.val)
  · exact unchangedExcept_keypad_of_eq (s.keyUp_eq k.val)

/-! ## Loading and reset (70_reset_and_hazards.md R221, R223) -/

theorem Machine.State.load_of_fits (s : State) {bytes : List Byte} (h : 0x200 + bytes.length ≤ 4096) :
    s.load bytes = (s.storeBytes 0x200 bytes, .ok) :=
  if_pos h

/-- Settles O54: a load that fits is the store of its bytes from 0x200 on. -/
theorem loadCopiesTheRom : Obligations.LoadCopiesTheRom := by
  unfold Obligations.LoadCopiesTheRom
  intro s bytes hfit
  rw [s.load_of_fits hfit]
  refine ⟨rfl, fun j hj => ?_, fun a ha => ?_, State.storeBytes_unchangedExcept s _ bytes⟩
  · rw [State.storeBytes_readByte, if_pos ⟨by omega, by omega⟩, Nat.add_sub_cancel_left, List.getD_eq_getElem _ _ hj,
      List.getElem?_eq_getElem hj]
  · rw [State.storeBytes_readByte, if_neg (by omega)]

theorem doReset_readByte (s : State) (a : Nat) : s.doReset.readByte a = resetByte s.params.font a := rfl

theorem resetByte_of_lt (font : Vector Byte 80) (a : Fin 80) : resetByte font a.val = font.get a := by
  simp [resetByte, Vector.get_eq_getElem]

theorem resetByte_of_le (font : Vector Byte 80) {a : Nat} (h : 80 ≤ a) : resetByte font a = 0 := by
  simp [resetByte, h]

/-- Settles O56: part by part, the reset values of R41; the listed parts are all but the parameters and the draws. -/
theorem resetRestoresEveryPart : Obligations.ResetRestoresEveryPart := by
  unfold Obligations.ResetRestoresEveryPart
  refine fun s => ⟨?_, rfl, rfl, rfl, ?_, rfl, rfl, ?_, ?_, fun a => ?_, fun a ha => ?_, rfl, ?_⟩
  · intro r; simp [State.doReset, State.resetWith, State.reg, Vector.get_eq_getElem]
  · intro j; simp [State.doReset, State.resetWith, State.stackAt, Vector.get_eq_getElem]
  · intro k; simp [State.doReset, State.resetWith, State.key, Vector.get_eq_getElem]
  · intro y x; exact FrameBuffer.cell_clear y x
  · rw [doReset_readByte, resetByte_of_lt]
  · rw [doReset_readByte, resetByte_of_le _ ha]
  · intro p hp
    cases p with
    | params | draws => rfl
    | _ => exact absurd hp (by decide)

end Sys2Proof
end
